-- ==== Sys2Proof/Word.lean ====
section
/-! DEFINITION. The value types of the hardware: bytes, words, and the operand fields of an instruction word
(00_scope.md R5, R7; 30_encoding.md R61). -/

namespace Sys2Proof

/-- A byte: a general register, a timer, one cell of main memory (R5 `XLEN`). -/
abbrev Byte := BitVec 8

/-- A 16-bit value: an instruction word, `I`, `PC`, a stack entry (R6). -/
abbrev Word := BitVec 16

/-- A 4-bit operand field: a register index `x` or `y`, or a sprite height `n` (R61). -/
abbrev Nibble := BitVec 4

/-- The 12-bit address operand `nnn` (R61). -/
abbrev Addr12 := BitVec 12

/-- The index of VF, the flag register `V[15]` (10_state.md R12). -/
abbrev vf : Nibble := 0xF#4

end Sys2Proof
end

