-- ==== Sys2Proof/Syntax.lean ====
section
/-! DEFINITION. The instructions: one constructor per row of spec/opcode_table.json, in the table's order
(30_encoding.md R64), the decoder's default row UNKNOWN last. -/

namespace Sys2Proof

/-- An instruction with its operand fields (30_encoding.md R61, R62). -/
inductive Instr where
  | cls                               -- 00E0  CLS            R140
  | ret                               -- 00EE  RET            R101
  | jpNnn (nnn : Addr12)              -- 1nnn  JP nnn         R102
  | callNnn (nnn : Addr12)            -- 2nnn  CALL nnn       R103
  | seVxKk (x : Nibble) (kk : Byte)   -- 3xkk  SE Vx, kk      R104
  | sneVxKk (x : Nibble) (kk : Byte)  -- 4xkk  SNE Vx, kk     R105
  | seVxVy (x y : Nibble)             -- 5xy0  SE Vx, Vy      R106
  | ldVxKk (x : Nibble) (kk : Byte)   -- 6xkk  LD Vx, kk      R120
  | addVxKk (x : Nibble) (kk : Byte)  -- 7xkk  ADD Vx, kk     R121
  | ldVxVy (x y : Nibble)             -- 8xy0  LD Vx, Vy      R122
  | orVxVy (x y : Nibble)             -- 8xy1  OR Vx, Vy      R123
  | andVxVy (x y : Nibble)            -- 8xy2  AND Vx, Vy     R124
  | xorVxVy (x y : Nibble)            -- 8xy3  XOR Vx, Vy     R125
  | addVxVy (x y : Nibble)            -- 8xy4  ADD Vx, Vy     R126
  | subVxVy (x y : Nibble)            -- 8xy5  SUB Vx, Vy     R127
  | shrVx (x y : Nibble)              -- 8xy6  SHR Vx         R128 (`y` is decoded and ignored)
  | subnVxVy (x y : Nibble)           -- 8xy7  SUBN Vx, Vy    R129
  | shlVx (x y : Nibble)              -- 8xyE  SHL Vx         R130 (`y` is decoded and ignored)
  | sneVxVy (x y : Nibble)            -- 9xy0  SNE Vx, Vy     R107
  | ldINnn (nnn : Addr12)             -- Annn  LD I, nnn      R160
  | jpV0Nnn (nnn : Addr12)            -- Bnnn  JP V0, nnn     R108
  | rndVxKk (x : Nibble) (kk : Byte)  -- Cxkk  RND Vx, kk     R131
  | drwVxVyN (x y n : Nibble)         -- Dxyn  DRW Vx, Vy, n  R141
  | skpVx (x : Nibble)                -- Ex9E  SKP Vx         R150
  | sknpVx (x : Nibble)               -- ExA1  SKNP Vx        R151
  | ldVxDt (x : Nibble)               -- Fx07  LD Vx, DT      R152
  | ldVxK (x : Nibble)                -- Fx0A  LD Vx, K       R153
  | ldDtVx (x : Nibble)               -- Fx15  LD DT, Vx      R154
  | ldStVx (x : Nibble)               -- Fx18  LD ST, Vx      R155
  | addIVx (x : Nibble)               -- Fx1E  ADD I, Vx      R162
  | ldFVx (x : Nibble)                -- Fx29  LD F, Vx       R163
  | ldBVx (x : Nibble)                -- Fx33  LD B, Vx       R164
  | ldMemIVx (x : Nibble)             -- Fx55  LD [I], Vx     R165
  | ldVxMemI (x : Nibble)             -- Fx65  LD Vx, [I]     R166
  | unknown (w : Word)                -- any other word       R66, R87
  deriving DecidableEq, Repr

end Sys2Proof
end

