-- ==== Sys2Proof/Decode.lean ====
section
/-! DEFINITION. The decoder block `chip8_decoder` (30_encoding.md R60 to R67) and, after it, the encoder.

UNVERIFIED (log entry 5): every pattern that selects an instruction is the canonical CHIP-8 map (R64, decisions D1,
D2), which the source does not print. -/

namespace Sys2Proof

/-! ### Fields (R61) -/

/-- Nibble 1, the class: `word[15:12]`. -/
def classOf (w : Word) : Nibble := w.extractLsb' 12 4
/-- Nibble 2, the first register index: `word[11:8]`. -/
def xOf (w : Word) : Nibble := w.extractLsb' 8 4
/-- Nibble 3, the second register index: `word[7:4]`. -/
def yOf (w : Word) : Nibble := w.extractLsb' 4 4
/-- Nibble 4, the sprite height or sub-operation selector: `word[3:0]`. -/
def nOf (w : Word) : Nibble := w.extractLsb' 0 4
/-- The immediate byte or sub-operation selector: `word[7:0]`. -/
def kkOf (w : Word) : Byte := w.extractLsb' 0 8
/-- The address: `word[11:0]`. -/
def nnnOf (w : Word) : Addr12 := w.extractLsb' 0 12

/-! ### The opcode map (R64) -/

/-- Mask and match of the 34 rows of R64, in the order of the table: the word `w` selects the row iff
`w & mask = match`. -/
def opcodeRows : List (Word × Word) :=
  [(0xFFFF#16, 0x00E0#16), (0xFFFF#16, 0x00EE#16), (0xF000#16, 0x1000#16), (0xF000#16, 0x2000#16), (0xF000#16, 0x3000#16)] ++
  [(0xF000#16, 0x4000#16), (0xF00F#16, 0x5000#16), (0xF000#16, 0x6000#16), (0xF000#16, 0x7000#16), (0xF00F#16, 0x8000#16)] ++
  [(0xF00F#16, 0x8001#16), (0xF00F#16, 0x8002#16), (0xF00F#16, 0x8003#16), (0xF00F#16, 0x8004#16), (0xF00F#16, 0x8005#16)] ++
  [(0xF00F#16, 0x8006#16), (0xF00F#16, 0x8007#16), (0xF00F#16, 0x800E#16), (0xF00F#16, 0x9000#16), (0xF000#16, 0xA000#16)] ++
  [(0xF000#16, 0xB000#16), (0xF000#16, 0xC000#16), (0xF000#16, 0xD000#16), (0xF0FF#16, 0xE09E#16), (0xF0FF#16, 0xE0A1#16)] ++
  [(0xF0FF#16, 0xF007#16), (0xF0FF#16, 0xF00A#16), (0xF0FF#16, 0xF015#16), (0xF0FF#16, 0xF018#16), (0xF0FF#16, 0xF01E#16)] ++
  [(0xF0FF#16, 0xF029#16), (0xF0FF#16, 0xF033#16), (0xF0FF#16, 0xF055#16), (0xF0FF#16, 0xF065#16)]

/-- The word matches no row of R64 (R66). -/
def isUnknownWord (w : Word) : Bool := opcodeRows.all fun row => w &&& row.1 != row.2

/-- The number of the instruction's row in R64; the decoder's default counts as row 35. -/
def Instr.row : Instr → Nat
  | .cls => 1 | .ret => 2 | .jpNnn _ => 3 | .callNnn _ => 4 | .seVxKk _ _ => 5 | .sneVxKk _ _ => 6
  | .seVxVy _ _ => 7 | .ldVxKk _ _ => 8 | .addVxKk _ _ => 9 | .ldVxVy _ _ => 10 | .orVxVy _ _ => 11
  | .andVxVy _ _ => 12 | .xorVxVy _ _ => 13 | .addVxVy _ _ => 14 | .subVxVy _ _ => 15 | .shrVx _ _ => 16
  | .subnVxVy _ _ => 17 | .shlVx _ _ => 18 | .sneVxVy _ _ => 19 | .ldINnn _ => 20 | .jpV0Nnn _ => 21
  | .rndVxKk _ _ => 22 | .drwVxVyN _ _ _ => 23 | .skpVx _ => 24 | .sknpVx _ => 25 | .ldVxDt _ => 26
  | .ldVxK _ => 27 | .ldDtVx _ => 28 | .ldStVx _ => 29 | .addIVx _ => 30 | .ldFVx _ => 31 | .ldBVx _ => 32
  | .ldMemIVx _ => 33 | .ldVxMemI _ => 34 | .unknown _ => 35

/-! ### The decoder (R60, R65) -/

/-- Class 0: the whole word is compared (R65). -/
def decodeClass0 (w : Word) : Instr :=
  if w = 0x00E0#16 then .cls else if w = 0x00EE#16 then .ret else .unknown w

/-- Class 5: only the low nibble 0 is an instruction (R65). -/
def decodeClass5 (w : Word) : Instr := if nOf w = 0x0#4 then .seVxVy (xOf w) (yOf w) else .unknown w

/-- Class 9: only the low nibble 0 is an instruction (R65). -/
def decodeClass9 (w : Word) : Instr := if nOf w = 0x0#4 then .sneVxVy (xOf w) (yOf w) else .unknown w

/-- Class E: the low byte selects the operation, compared in full (R65). -/
def decodeClassE (w : Word) : Instr :=
  if kkOf w = 0x9E#8 then .skpVx (xOf w) else if kkOf w = 0xA1#8 then .sknpVx (xOf w) else .unknown w

/-- Class 8: the low nibble selects the operation, compared in full (R65). -/
def decodeClass8 (w : Word) : Instr :=
  match nOf w with
  | 0x0#4 => .ldVxVy (xOf w) (yOf w)
  | 0x1#4 => .orVxVy (xOf w) (yOf w)
  | 0x2#4 => .andVxVy (xOf w) (yOf w)
  | 0x3#4 => .xorVxVy (xOf w) (yOf w)
  | 0x4#4 => .addVxVy (xOf w) (yOf w)
  | 0x5#4 => .subVxVy (xOf w) (yOf w)
  | 0x6#4 => .shrVx (xOf w) (yOf w)
  | 0x7#4 => .subnVxVy (xOf w) (yOf w)
  | 0xE#4 => .shlVx (xOf w) (yOf w)
  | _ => .unknown w

/-- Class F: the low byte selects the operation, compared in full (R65). -/
def decodeClassF (w : Word) : Instr :=
  match kkOf w with
  | 0x07#8 => .ldVxDt (xOf w)
  | 0x0A#8 => .ldVxK (xOf w)
  | 0x15#8 => .ldDtVx (xOf w)
  | 0x18#8 => .ldStVx (xOf w)
  | 0x1E#8 => .addIVx (xOf w)
  | 0x29#8 => .ldFVx (xOf w)
  | 0x33#8 => .ldBVx (xOf w)
  | 0x55#8 => .ldMemIVx (xOf w)
  | 0x65#8 => .ldVxMemI (xOf w)
  | _ => .unknown w

/-- The decoder: total, stateless, one instruction for each of the 65536 words (R60). -/
def decodeWord (w : Word) : Instr :=
  match classOf w with
  | 0x0#4 => decodeClass0 w
  | 0x1#4 => .jpNnn (nnnOf w)
  | 0x2#4 => .callNnn (nnnOf w)
  | 0x3#4 => .seVxKk (xOf w) (kkOf w)
  | 0x4#4 => .sneVxKk (xOf w) (kkOf w)
  | 0x5#4 => decodeClass5 w
  | 0x6#4 => .ldVxKk (xOf w) (kkOf w)
  | 0x7#4 => .addVxKk (xOf w) (kkOf w)
  | 0x8#4 => decodeClass8 w
  | 0x9#4 => decodeClass9 w
  | 0xA#4 => .ldINnn (nnnOf w)
  | 0xB#4 => .jpV0Nnn (nnnOf w)
  | 0xC#4 => .rndVxKk (xOf w) (kkOf w)
  | 0xD#4 => .drwVxVyN (xOf w) (yOf w) (nOf w)
  | 0xE#4 => decodeClassE w
  | 0xF#4 => decodeClassF w
  | _ => .unknown w

/-- Why a list of bytes holds no instruction. -/
inductive DecodeError where
  /-- Fewer than the two bytes every instruction has (R67). Safe: nothing is decoded. -/
  | truncated
  deriving DecidableEq, Repr

/-- Bytes to word, big-endian: the byte at the lower address is `word[15:8]` (20_memory.md R43). -/
def wordOfBytes (hi lo : Byte) : Word := hi ++ lo

/-- The first instruction of a list of bytes in ascending addresses, and the bytes after it (R67). -/
def decode : List Byte → Except DecodeError (Instr × List Byte)
  | hi :: lo :: rest => .ok (decodeWord (wordOfBytes hi lo), rest)
  | _ => .error .truncated

/-- The decoder's answer on a word numbered as spec/opcode_table.json numbers it; bits at `nbits` and above are 0,
and the word is laid out big-endian (20_memory.md R43). -/
def decodeTableWord (nbits w : Nat) : Option Instr :=
  let word : Word := BitVec.ofNat 16 (w % 2 ^ nbits)
  match decode [word.extractLsb' 8 8, word.extractLsb' 0 8] with
  | .ok (i, _) => some i
  | .error _ => none

/-! ### The encoder (R62, R64) -/

/-- A word of the formats XY and XYN: class, `x`, `y`, low nibble (R62). -/
def wordXYN (c x y n : Nibble) : Word := c ++ x ++ y ++ n
/-- A word of the formats XKK and X: class, `x`, low byte (R62). -/
def wordXKK (c x : Nibble) (kk : Byte) : Word := c ++ x ++ kk
/-- A word of the format NNN: class, address (R62). -/
def wordNNN (c : Nibble) (nnn : Addr12) : Word := c ++ nnn

/-- The word of an instruction (R64). -/
def encode : Instr → Word
  | .cls => 0x00E0#16
  | .ret => 0x00EE#16
  | .jpNnn nnn => wordNNN 0x1 nnn
  | .callNnn nnn => wordNNN 0x2 nnn
  | .seVxKk x kk => wordXKK 0x3 x kk
  | .sneVxKk x kk => wordXKK 0x4 x kk
  | .seVxVy x y => wordXYN 0x5 x y 0x0
  | .ldVxKk x kk => wordXKK 0x6 x kk
  | .addVxKk x kk => wordXKK 0x7 x kk
  | .ldVxVy x y => wordXYN 0x8 x y 0x0
  | .orVxVy x y => wordXYN 0x8 x y 0x1
  | .andVxVy x y => wordXYN 0x8 x y 0x2
  | .xorVxVy x y => wordXYN 0x8 x y 0x3
  | .addVxVy x y => wordXYN 0x8 x y 0x4
  | .subVxVy x y => wordXYN 0x8 x y 0x5
  | .shrVx x y => wordXYN 0x8 x y 0x6
  | .subnVxVy x y => wordXYN 0x8 x y 0x7
  | .shlVx x y => wordXYN 0x8 x y 0xE
  | .sneVxVy x y => wordXYN 0x9 x y 0x0
  | .ldINnn nnn => wordNNN 0xA nnn
  | .jpV0Nnn nnn => wordNNN 0xB nnn
  | .rndVxKk x kk => wordXKK 0xC x kk
  | .drwVxVyN x y n => wordXYN 0xD x y n
  | .skpVx x => wordXKK 0xE x 0x9E
  | .sknpVx x => wordXKK 0xE x 0xA1
  | .ldVxDt x => wordXKK 0xF x 0x07
  | .ldVxK x => wordXKK 0xF x 0x0A
  | .ldDtVx x => wordXKK 0xF x 0x15
  | .ldStVx x => wordXKK 0xF x 0x18
  | .addIVx x => wordXKK 0xF x 0x1E
  | .ldFVx x => wordXKK 0xF x 0x29
  | .ldBVx x => wordXKK 0xF x 0x33
  | .ldMemIVx x => wordXKK 0xF x 0x55
  | .ldVxMemI x => wordXKK 0xF x 0x65
  | .unknown w => w

/-- The two bytes of an instruction in ascending addresses (20_memory.md R43). -/
def encodeBytes (i : Instr) : List Byte := [(encode i).extractLsb' 8 8, (encode i).extractLsb' 0 8]

end Sys2Proof
end

