-- ==== Sys2Proof/Config.lean ====
section
/-! DEFINITION. What is fixed for the hardware: the sizes of 00_scope.md R5, the font table of 20_memory.md R47 with
its open parameter, and the two free values a STEP receives from its host (10_state.md R24). -/

namespace Sys2Proof.Config

/-- Bytes of main memory, addresses 0..4095 (R5 `MEM_SIZE`). -/
def memSize : Nat := 4096

/-- Where programs are loaded and start: the reset value of `PC` (R5 `PROG_BASE`). -/
def progBase : Word := 0x200#16

/-- Address of the first font byte (R5 `FONT_BASE`). -/
def fontBase : Nat := 0

/-- Bytes of one glyph (R5 `GLYPH_SIZE`). -/
def glyphSize : Nat := 5

/-- Glyph 0 of the font table, bytes 0 to 4 (R47, the source's). -/
def glyph0 : List Byte := [0xF0, 0x90, 0x90, 0x90, 0xF0]

/-- Glyph F of the font table, bytes 75 to 79 (R47, the source's). -/
def glyphF : List Byte := [0xF0, 0x80, 0xF0, 0x80, 0x80]

/-- The open parameter `FONT[5..74]` (R6, decision D16): the rows of glyphs 1 to E. A row is its four pixel columns,
bits 7..4 of its byte; bits 3..0 are 0 in every byte of the table (R47). -/
abbrev GlyphRows := Vector Nibble 70

/-- The byte of a row. -/
def rowByte (row : Nibble) : Byte := row ++ 0x0#4

/-- The font table `FONT[0..79]` for a value of the open parameter (R47). -/
def fontTable (rows : GlyphRows) : List Byte := glyph0 ++ rows.toList.map rowByte ++ glyphF

/-- The default bytes of glyphs 1 to 7 (R47). UNVERIFIED (log entry 9): decision D16. -/
def defaultLow : List Byte :=
  [0x20, 0x60, 0x20, 0x20, 0x70] ++ [0xF0, 0x10, 0xF0, 0x80, 0xF0] ++ [0xF0, 0x10, 0xF0, 0x10, 0xF0] ++
  [0x90, 0x90, 0xF0, 0x10, 0x10] ++ [0xF0, 0x80, 0xF0, 0x10, 0xF0] ++ [0xF0, 0x80, 0xF0, 0x90, 0xF0] ++
  [0xF0, 0x10, 0x20, 0x40, 0x40]

/-- The default bytes of glyphs 8 to E (R47). UNVERIFIED (log entry 9): decision D16. -/
def defaultHigh : List Byte :=
  [0xF0, 0x90, 0xF0, 0x90, 0xF0] ++ [0xF0, 0x90, 0xF0, 0x10, 0xF0] ++ [0xF0, 0x90, 0xF0, 0x90, 0x90] ++
  [0xE0, 0x90, 0xE0, 0x90, 0xE0] ++ [0xF0, 0x80, 0x80, 0x80, 0xF0] ++ [0xE0, 0x90, 0x90, 0x90, 0xE0] ++
  [0xF0, 0x80, 0xF0, 0x80, 0xF0]

/-- The default of the open parameter: the conventional CHIP-8 font (R6, R47). -/
def defaultRows : GlyphRows := ⟨((defaultLow ++ defaultHigh).map fun b => b.extractLsb' 4 4).toArray, rfl⟩

/-- The font table at the default of the open parameter. -/
def defaultFont : List Byte := fontTable defaultRows

/-- The keypad snapshot the host gives to the `t`-th STEP when the model's input list names none: any 16 booleans
(R24). A free value (log entry 1): nothing can be proved of it. -/
opaque freeKeypad : Nat → BitVec 16

/-- The random byte the host gives to the `t`-th STEP when the model's input list names none: any byte (R24;
93_implementation_defined.md U8). A free value (log entry 1): nothing can be proved of it. -/
opaque freeRnd : Nat → Byte

end Sys2Proof.Config
end

