-- ==== Sys2Proof/Machine/State.lean ====
section
/-! DEFINITION. The state of the machine as plain data (10_state.md), the reasons a step can stop, and the state after
reset (10_state.md R30; 70_reset_and_hazards.md R190). -/

namespace Sys2Proof.Machine

/-- Main memory `MEM` (20_memory.md R40): the bytes that differ from what `INIT` leaves with the default font, by rising
address.
`Memory.wf` in Machine/Ops.lean states the form. DESIGN CHOICE (log entry 15). -/
abbrev Memory := List Host.Cell

/-- The display buffer: `DISP[c][r]` is column `c`, row `r`, true = lit (10_state.md R19; DEDUCED, log entry 14). -/
abbrev Display := Vector (Vector Bool 32) 64

/-- The six fault causes (60_exceptions.md R171). -/
inductive FaultCause where
  | fetchOutOfRange     -- 1: the fetch of a Running step with `PC > 4094`
  | memOutOfRange       -- 2: `Dxyn`, `Fx33`, `Fx55`, `Fx65` reaching above 4095
  | stackOverflow       -- 3: `2nnn` with `SP = 16`
  | stackUnderflow      -- 4: `00EE` with `SP = 0`
  | keyIndexOutOfRange  -- 5: `Ex9E`, `ExA1` with `V[x] > 15`
  | indexOverflow       -- 6: `Fx1E` with `I + V[x] > 0xFFFF`
  deriving DecidableEq, Repr

/-- The record in the fault latch (10_state.md R21). -/
structure FaultRecord where
  cause : FaultCause
  pc    : Word
  info  : Word
  deriving DecidableEq, Repr

/-- The arguments the host gives to one `STEP` (10_state.md R24). -/
structure StepInput where
  keypad : BitVec 16
  rnd    : Byte
  deriving DecidableEq, Repr

/-- The three states of the step machine (40_step_cycle.md R80, R90). -/
inductive Mode where
  | running
  | awaitingKey
  | faulted
  deriving DecidableEq, Repr

/-- The whole state. The first group is the spec's (10_state.md R11 to R21, R40); the second holds the ports of the
current `STEP` (R24, R25); then the open parameter of the font table (00_scope.md R6, log entry 9); the last two fields
are the model's own (log entries 1 and 2). -/
structure State where
  v     : Vector Byte 16          -- V0..VF, R11
  i     : Word                    -- index register, R16
  pc    : Word                    -- program counter, R13
  sp    : Fin 17                  -- occupied stack entries 0..16, R17 (log entry 16)
  stack : Vector Word 16          -- call-return addresses, R17
  dt    : Byte                    -- delay timer, R18
  st    : Byte                    -- sound timer, R18
  disp  : Display                 -- display buffer, R19
  wait  : Bool                    -- key-wait flag, R20
  wreg  : Nibble                  -- register that receives the key, R20
  fault : Option FaultRecord      -- fault latch, R21
  mem   : Memory                  -- main memory, R40
  keypad         : BitVec 16      -- input port: bit k is 1 iff key k is pressed, R24
  rnd            : Byte           -- input port: the byte `Cxkk` uses, R24
  displayChanged : Bool           -- output port of the last STEP, R25, R88
  font   : Config.GlyphRows       -- FONT[5..74] of the constant table font_table, R6, R47: read by INIT, written by nothing
  inputs : List StepInput         -- arguments already chosen for the coming STEPs, oldest first
  tick   : Nat                    -- number of STEPs begun
  deriving DecidableEq, Repr

/-- Reasons for which a step of this hardware stops without a next state: NONE. Every fatal condition of the spec is
latched in `FAULT` and leaves a next state (60_exceptions.md R172), and `STEP` is total (40_step_cycle.md R91). -/
inductive Fault where
  deriving DecidableEq, Repr

/-- Reasons for which the model has no meaning for an instruction. -/
inductive Refusal where
  /-- Raised by an arm of `exec` whose instruction has no meaning in the model yet, and by nothing else. Safe: no
  claim can be proved of what was not run. No arm of `exec` raises it now. -/
  | notModelled (mnemonic : String)
  deriving DecidableEq, Repr

/-- The state after `INIT` at the default of the font's open parameter (R30, R190). Memory lists nothing: an unlisted
address reads as the default font below 80 and 0 elsewhere. `State.resetWith` in Machine/Ops.lean gives the state after
`INIT` for any font. The values of `keypad`, `rnd`, `inputs`, `tick` are the model's own (log entry 2). -/
def State.reset : State where
  v := Vector.replicate 16 0
  i := 0
  pc := Config.progBase
  sp := 0
  stack := Vector.replicate 16 0
  dt := 0
  st := 0
  disp := Vector.replicate 64 (Vector.replicate 32 false)
  wait := false
  wreg := 0
  fault := none
  mem := []
  keypad := 0
  rnd := 0
  displayChanged := false
  font := Config.defaultRows
  inputs := []
  tick := 0

end Sys2Proof.Machine
end

