-- ==== Sys2Proof/Machine/Ops.lean ====
section
/-! DEFINITION. The named operations over registers, memory, stack, display, ports and the program counter; raising a
fault; the host operations INIT and LOAD; the parts of a STEP around the instruction. -/

namespace Sys2Proof.Machine

/-! ### General registers (10_state.md R11) -/

/-- `V[r]`. -/
def State.getV (s : State) (r : Nibble) : Byte := s.v[r.toNat]'r.isLt

/-- `V[r] <- b`. -/
def State.setV (s : State) (r : Nibble) (b : Byte) : State := { s with v := s.v.set r.toNat b r.isLt }

/-- `V[r], V[r+1], ... <- b, ...` in ascending order (45_index_memory.md R166). -/
def State.setVs (s : State) (r : Nat) : List Byte → State
  | [] => s
  | b :: bs => (s.setV (BitVec.ofNat 4 r) b).setVs (r + 1) bs

/-- `V[0], ..., V[x]` in ascending order (45_index_memory.md R165). -/
def State.getVsUpTo (s : State) (x : Nibble) : List Byte :=
  (List.range (x.toNat + 1)).map fun k => s.getV (BitVec.ofNat 4 k)

/-! ### The other registers (10_state.md R16 to R20) -/

/-- `I <- a`. -/
def State.setI (s : State) (a : Word) : State := { s with i := a }

/-- `DT <- b`. -/
def State.setDt (s : State) (b : Byte) : State := { s with dt := b }

/-- `ST <- b`. -/
def State.setSt (s : State) (b : Byte) : State := { s with st := b }

/-- `WAIT <- 1; WREG <- x` (44_keypad_timers.md R153). -/
def State.startWait (s : State) (x : Nibble) : State := { s with wait := true, wreg := x }

/-! ### Program-counter transitions (40_step_cycle.md R86)

DESIGN CHOICE (log entry 13): the sums are 16-bit. They cannot wrap after a successful fetch (10_state.md R15). -/

/-- `Jump(a)`: `PC <- a`. -/
def State.jump (s : State) (a : Word) : State := { s with pc := a }

/-- `Advance`: `PC <- PC + 2`. -/
def State.advance (s : State) : State := s.jump (s.pc + 2)

/-- `Skip`: `PC <- PC + 4`. -/
def State.skip (s : State) : State := s.jump (s.pc + 4)

/-- Skip when the condition holds, else Advance (41_flow.md R104). -/
def State.skipIf (s : State) (c : Bool) : State := if c then s.skip else s.advance

/-! ### Raising a fault (60_exceptions.md R172) -/

/-- The code of a cause (60_exceptions.md R171). -/
def FaultCause.code : FaultCause → Nat
  | .fetchOutOfRange => 1
  | .memOutOfRange => 2
  | .stackOverflow => 3
  | .stackUnderflow => 4
  | .keyIndexOutOfRange => 5
  | .indexOverflow => 6

/-- Fault entry: `FAULT <- (cause, PC, info)`, `display_changed <- 0`, nothing else (60_exceptions.md R172). -/
def State.raise (s : State) (cause : FaultCause) (info : Word) : State :=
  { s with fault := some ⟨cause, s.pc, info⟩, displayChanged := false }

/-! ### Main memory (20_memory.md R40 to R42) -/

/-- What `INIT` leaves at an address with the default font: `FONT[a]` below 80, else 0 (10_state.md R30). This is what
an address that memory does not list reads as; `INIT` with another font lists the bytes in which the two differ. -/
def resetByte (a : Nat) : Byte := Config.defaultFont.getD a 0

/-- The canonical form of memory: addresses strictly rising, none above 4095, no byte listed that equals what an
unlisted address reads as. -/
abbrev Memory.wf (m : Memory) : Prop :=
  m.Pairwise (fun c d => c.1 < d.1) ∧ ∀ c ∈ m, c.1 < Config.memSize ∧ c.2 ≠ resetByte c.1

/-- `MemRead(a, 1)` (R41). -/
def Memory.read : Memory → Nat → Byte
  | [], a => resetByte a
  | c :: m, a => if c.1 = a then c.2 else Memory.read m a

/-- The list `m`, whose addresses all exceed `a`, with byte `b` at `a`. -/
def Memory.consCell (a : Nat) (b : Byte) (m : Memory) : Memory := if b = resetByte a then m else (a, b) :: m

/-- `MemWrite(a, 1, b)` (R41), keeping the canonical form. -/
def Memory.write : Memory → Nat → Byte → Memory
  | [], a, b => Memory.consCell a b []
  | c :: m, a, b =>
    if a < c.1 then Memory.consCell a b (c :: m)
    else if a = c.1 then Memory.consCell a b m
    else c :: Memory.write m a b

/-- `MemWrite` of consecutive bytes in ascending order (R45, R54). -/
def Memory.writeBytes (m : Memory) (a : Nat) : List Byte → Memory
  | [] => m
  | b :: bs => Memory.writeBytes (m.write a b) (a + 1) bs

/-- `MEM[a]` as a data access or the fetch reads it. -/
def State.readMem (s : State) (a : Nat) : Byte := s.mem.read a

/-- Every address of `base .. base + len - 1` is one of memory's; no address at all is fine (R41, R42). -/
abbrev InMemory (base len : Nat) : Prop := len = 0 ∨ base + len ≤ Config.memSize

/-- The bytes at `base .. base + len - 1`, or none if one of them would be above 4095: the whole range is checked
before anything is done (R42). -/
def State.readRange (s : State) (base len : Nat) : Option (List Byte) :=
  if InMemory base len then some ((List.range len).map fun k => s.readMem (base + k)) else none

/-- The state with `bytes` stored from `base` on, or none if one address would be above 4095 (R42). -/
def State.writeRange (s : State) (base : Nat) (bytes : List Byte) : Option State :=
  if InMemory base bytes.length then some { s with mem := s.mem.writeBytes base bytes } else none

/-! ### The host operations INIT and LOAD (70_reset_and_hazards.md R190 to R192) -/

/-- The state after `INIT` on a machine whose open glyph rows are `rows` (10_state.md R30, R191): memory is zeroed and
the font table copied to address 0. At the default rows this is `State.reset`. -/
def State.resetWith (rows : Config.GlyphRows) : State :=
  { State.reset with font := rows, mem := Memory.writeBytes [] 0 (Config.fontTable rows) }

/-- The host operation `INIT`, from any state, and the only way out of FAULTED (R190; 60_exceptions.md R177): the state
after reset. What the host holds itself, the input ports and the coming inputs, is not the core's and stays (log entry
18). -/
def State.init (s : State) : State :=
  { State.resetWith s.font with keypad := s.keypad, rnd := s.rnd, inputs := s.inputs, tick := s.tick }

/-- The host operation `LOAD(bytes)`: copies to 0x200 upward, dropping what would pass 4095 (R192). -/
def State.load (s : State) (bytes : List Byte) : State :=
  { s with mem := s.mem.writeBytes Config.progBase.toNat (bytes.take (Config.memSize - Config.progBase.toNat)) }

/-! ### Call stack (10_state.md R17) -/

/-- `STACK[SP] <- a; SP <- SP + 1`, or none when the stack is full (41_flow.md R103). -/
def State.push (s : State) (a : Word) : Option State :=
  if h : s.sp.val < 16 then
    some { s with stack := s.stack.set s.sp.val a h, sp := ⟨s.sp.val + 1, by omega⟩ }
  else none

/-- `STACK[SP - 1]` and the state with `SP <- SP - 1`, or none when the stack is empty (41_flow.md R101). -/
def State.pop (s : State) : Option (Word × State) :=
  if h : 0 < s.sp.val then
    some (s.stack[s.sp.val - 1]'(by omega), { s with sp := ⟨s.sp.val - 1, by omega⟩ })
  else none

/-! ### Display (10_state.md R19; 43_display.md R140 to R142) -/

/-- `DISP[c][r]`. -/
def Display.pixel (d : Display) (c : Fin 64) (r : Fin 32) : Bool := d[c.val][r.val]

/-- `DISP[c][r] <- b`. -/
def Display.setPixel (d : Display) (c : Fin 64) (r : Fin 32) (b : Bool) : Display :=
  d.set c.val (d[c.val].set r.val b)

/-- All pixels off. -/
def Display.clear : Display := Vector.replicate 64 (Vector.replicate 32 false)

/-- The display a STEP leaves and its `display_changed` output (40_step_cycle.md R88). -/
def State.setDisp (s : State) (d : Display) : State := { s with disp := d, displayChanged := true }

/-- The column of sprite bit `bit`: `(vx + bit) mod 64` (R141). -/
def spriteCol (vx : Byte) (bit : Nat) : Fin 64 := Fin.ofNat 64 (vx.toNat + bit)

/-- The display row of sprite row `row`: `(vy + row) mod 32` (R141). -/
def spriteRow (vy : Byte) (row : Nat) : Fin 32 := Fin.ofNat 32 (vy.toNat + row)

/-- Bit `bit` of a sprite row, counted from the left: the most significant bit is bit 0 (R141). -/
def spriteBit (b : Byte) (bit : Nat) : Bool := b.getLsbD (7 - bit)

/-- One sprite bit onto the display: collision if it turns a lit pixel off, then XOR (R141). -/
def drawBit (vx vy : Byte) (row : Nat) (b : Byte) (acc : Display × Bool) (bit : Nat) : Display × Bool :=
  let c := spriteCol vx bit
  let r := spriteRow vy row
  let lit := acc.1.pixel c r
  (acc.1.setPixel c r (lit ^^ spriteBit b bit), acc.2 || (spriteBit b bit && lit))

/-- The eight bits of one sprite row, most significant first (R141). -/
def drawRow (vx vy : Byte) (row : Nat) (b : Byte) (acc : Display × Bool) : Display × Bool :=
  (List.range 8).foldl (drawBit vx vy row b) acc

/-- The sprite rows from number `row` on (R141): the display and whether a pixel collided. -/
def drawRows (vx vy : Byte) : Nat → List Byte → Display × Bool → Display × Bool
  | _, [], acc => acc
  | row, b :: bs, acc => drawRows vx vy (row + 1) bs (drawRow vx vy row b acc)

/-! ### Ports and the parts of a STEP around the instruction (40_step_cycle.md R80 to R88) -/

/-- `KEY[k]` of the current snapshot (10_state.md R24). -/
def State.keyDown (s : State) (k : Nat) : Bool := s.keypad.getLsbD k

/-- The least `k` with `KEY[k] = 1` (R82). -/
def State.firstKey (s : State) : Option Nat := (List.range 16).find? s.keyDown

/-- The inputs of a STEP, sampled once at its start (10_state.md R24): the host's next choice, or free values. -/
def State.sampleInputs (s : State) : State :=
  match s.inputs with
  | input :: rest => { s with keypad := input.keypad, rnd := input.rnd, inputs := rest, tick := s.tick + 1 }
  | [] => { s with keypad := Config.freeKeypad s.tick, rnd := Config.freeRnd s.tick, tick := s.tick + 1 }

/-- The start of every STEP: sample the inputs, `changed <- 0` (R89). -/
def State.beginStep (s : State) : State := { s.sampleInputs with displayChanged := false }

/-- Which of the three kinds of step is due, in the order of precedence of R80. -/
def State.mode (s : State) : Mode :=
  match s.fault with
  | some _ => .faulted
  | none => if s.wait then .awaitingKey else .running

/-- An AwaitingKey step (R82): the first pressed key goes to `V[WREG]` and ends the wait. -/
def State.awaitKey (s : State) : State :=
  match s.firstKey with
  | some k => { s.setV s.wreg (BitVec.ofNat 8 k) with wait := false }
  | none => s

/-- One count of a timer: minus 1 unless it is 0 (10_state.md R18). -/
def countDown (t : Byte) : Byte := if t = 0 then 0 else t - 1

/-- The timer decrement of a Running step (R83). -/
def State.tickTimers (s : State) : State := { s with dt := countDown s.dt, st := countDown s.st }

/-- The word at `PC`, big-endian, at any parity; none when `PC > 4094` (R84; 20_memory.md R43, R44). -/
def State.fetch (s : State) : Option Word :=
  if s.pc.toNat > 4094 then none else some (s.readMem s.pc.toNat ++ s.readMem (s.pc.toNat + 1))

/-- The output `tone`: the sound timer is above 0 (R88). -/
def State.tone (s : State) : Bool := s.st != 0

/-- The outputs of a STEP (10_state.md R25): display, display_changed, tone, fault. -/
def State.outputs (s : State) : Display × Bool × Bool × Option FaultRecord :=
  (s.disp, s.displayChanged, s.tone, s.fault)

/-- A Running machine whose next fetch reads `word` (log entry 17): the fault latch and the key wait are cleared, a
`PC` that no fetch can read through is put at 0x200, and the two bytes are stored at `PC`, high byte first. -/
def State.placeWord (s : State) (word : Word) : State :=
  let pc := if s.pc.toNat > 4094 then Config.progBase else s.pc
  { s with
    fault := none
    wait := false
    pc := pc
    mem := s.mem.writeBytes pc.toNat [word.extractLsb' 8 8, word.extractLsb' 0 8] }

/-- `placeWord` of an instruction whose bits are numbered as spec/opcode_table.json numbers them; bits at `nbits` and
above are 0. -/
def State.placeTableWord (s : State) (nbits w : Nat) : State := s.placeWord (BitVec.ofNat 16 (w % 2 ^ nbits))

end Sys2Proof.Machine
end

