-- ==== Sys2Proof/Machine/Flags.lean ====
section
/-! DEFINITION. The flag computations (10_state.md R12; 42_alu.md R126 to R130, R132) and the two orders in which a
result and a flag are written (42_alu.md R133). -/

namespace Sys2Proof.Machine

/-- A flag value: 1 or 0. -/
def flagOf (b : Bool) : Byte := if b then 1 else 0

/-- Carry out of bit 7: the true sum exceeds 255 (R126). -/
def carryFlag (vx vy : Byte) : Byte := flagOf (decide (vx.toNat + vy.toNat > 255))

/-- 1 iff the minuend is strictly greater than the subtrahend, 0 at the tie (R127, R129).
UNVERIFIED (log entry 8): the tie, 90_conflicts.md C1. -/
def greaterFlag (minuend subtrahend : Byte) : Byte := flagOf (decide (minuend.toNat > subtrahend.toNat))

/-- The bit a right shift moves out: bit 0 (R128). -/
def shiftRightFlag (vx : Byte) : Byte := flagOf (vx.getLsbD 0)

/-- The bit a left shift moves out: bit 7 (R130). -/
def shiftLeftFlag (vx : Byte) : Byte := flagOf (vx.getLsbD 7)

/-- `V[x] <- result; V[15] <- flag`: the order of the add (R126).
UNVERIFIED (log entry 7): the order decides what `x = F` leaves, decision D5. -/
def State.setResultThenFlag (s : State) (x : Nibble) (result flag : Byte) : State := (s.setV x result).setV vf flag

/-- `V[15] <- flag; V[x] <- result`: the order of the subtractions and shifts (R127 to R130).
UNVERIFIED (log entry 7): the order decides what `x = F` leaves, decision D5. -/
def State.setFlagThenResult (s : State) (x : Nibble) (flag result : Byte) : State := (s.setV vf flag).setV x result

end Sys2Proof.Machine
end

