-- ==== Sys2Proof/Machine/Alu.lean ====
section
/-! DEFINITION. Register and ALU instructions (42_alu.md). Every meaning latches its operands from `s` before it
writes (00_scope.md R8), ends with `Advance`, and raises no fault. -/

namespace Sys2Proof.Machine

/-- `6xkk` LD Vx, kk (R120). -/
def execLdVxKk (x : Nibble) (kk : Byte) (s : State) : Host.Outcome State Fault Refusal :=
  .next (s.setV x kk).advance

/-- `7xkk` ADD Vx, kk (R121): modulo 256, VF is not written. -/
def execAddVxKk (x : Nibble) (kk : Byte) (s : State) : Host.Outcome State Fault Refusal :=
  .next (s.setV x (s.getV x + kk)).advance

/-- `8xy0` LD Vx, Vy (R122). -/
def execLdVxVy (x y : Nibble) (s : State) : Host.Outcome State Fault Refusal :=
  .next (s.setV x (s.getV y)).advance

/-- `8xy1` OR Vx, Vy (R123): VF is not written. -/
def execOrVxVy (x y : Nibble) (s : State) : Host.Outcome State Fault Refusal :=
  .next (s.setV x (s.getV x ||| s.getV y)).advance

/-- `8xy2` AND Vx, Vy (R124): VF is not written. -/
def execAndVxVy (x y : Nibble) (s : State) : Host.Outcome State Fault Refusal :=
  .next (s.setV x (s.getV x &&& s.getV y)).advance

/-- `8xy3` XOR Vx, Vy (R125): VF is not written. -/
def execXorVxVy (x y : Nibble) (s : State) : Host.Outcome State Fault Refusal :=
  .next (s.setV x (s.getV x ^^^ s.getV y)).advance

/-- `8xy4` ADD Vx, Vy (R126): the sum modulo 256, then VF = carry. -/
def execAddVxVy (x y : Nibble) (s : State) : Host.Outcome State Fault Refusal :=
  .next (s.setResultThenFlag x (s.getV x + s.getV y) (carryFlag (s.getV x) (s.getV y))).advance

/-- `8xy5` SUB Vx, Vy (R127): VF = minuend `Vx` strictly greater, then the difference modulo 256. -/
def execSubVxVy (x y : Nibble) (s : State) : Host.Outcome State Fault Refusal :=
  .next (s.setFlagThenResult x (greaterFlag (s.getV x) (s.getV y)) (s.getV x - s.getV y)).advance

/-- `8xy6` SHR Vx (R128): VF = bit 0, then the logical shift; `y` is ignored. -/
def execShrVx (x _y : Nibble) (s : State) : Host.Outcome State Fault Refusal :=
  .next (s.setFlagThenResult x (shiftRightFlag (s.getV x)) (s.getV x >>> 1)).advance

/-- `8xy7` SUBN Vx, Vy (R129): VF = minuend `Vy` strictly greater, then the difference modulo 256. -/
def execSubnVxVy (x y : Nibble) (s : State) : Host.Outcome State Fault Refusal :=
  .next (s.setFlagThenResult x (greaterFlag (s.getV y) (s.getV x)) (s.getV y - s.getV x)).advance

/-- `8xyE` SHL Vx (R130): VF = bit 7, then the shift; `y` is ignored. -/
def execShlVx (x _y : Nibble) (s : State) : Host.Outcome State Fault Refusal :=
  .next (s.setFlagThenResult x (shiftLeftFlag (s.getV x)) (s.getV x <<< 1)).advance

/-- `Cxkk` RND Vx, kk (R131): the random byte given to this STEP, masked. -/
def execRndVxKk (x : Nibble) (kk : Byte) (s : State) : Host.Outcome State Fault Refusal :=
  .next (s.setV x (s.rnd &&& kk)).advance

end Sys2Proof.Machine
end

