-- ==== Sys2Proof/Machine/Operands.lean ====
section
/-! DEFINITION. The operand forms of the instructions beyond plain registers: addresses, the index register's sums,
glyph addresses, key indices, decimal digits (30_encoding.md R63; 45_index_memory.md R161). -/

namespace Sys2Proof.Machine

/-- `zext_16(nnn)` (30_encoding.md R63). -/
def addrOf (nnn : Addr12) : Word := nnn.setWidth 16

/-- `zext_16(nnn) + zext_16(v0)`, never reduced: at most 0x10FE (41_flow.md R108). -/
def indexedAddr (nnn : Addr12) (v0 : Byte) : Word := nnn.setWidth 16 + v0.setWidth 16

/-- The address of the glyph for a byte, the whole byte times 5 (45_index_memory.md R163). -/
def glyphAddr (vx : Byte) : Word := BitVec.ofNat 16 (Config.fontBase + vx.toNat * Config.glyphSize)

/-- The exact sum of `I` and a register (45_index_memory.md R162). -/
def indexSum (i : Word) (vx : Byte) : Nat := i.toNat + vx.toNat

/-- The first address of an out-of-range access that starts at `I`: `max(I, 4096)` (60_exceptions.md R171). -/
def firstOutOfRange (i : Word) : Word := BitVec.ofNat 16 (max i.toNat Config.memSize)

/-- A byte as the 16-bit `info` of a fault: zero-extended (60_exceptions.md R171). -/
def infoOfByte (b : Byte) : Word := b.setWidth 16

/-- Hundreds, tens and units digit (45_index_memory.md R164). -/
def bcdDigits (vx : Byte) : List Byte :=
  [BitVec.ofNat 8 (vx.toNat / 100), BitVec.ofNat 8 (vx.toNat / 10 % 10), BitVec.ofNat 8 (vx.toNat % 10)]

end Sys2Proof.Machine
end

