-- ==== Sys2Proof/Machine/Display.lean ====
section
/-! DEFINITION. Display instructions (43_display.md), the only ones that write `DISP` and set `display_changed`. -/

namespace Sys2Proof.Machine

/-- `00E0` CLS (R140). -/
def execCls (s : State) : Host.Outcome State Fault Refusal := .next (s.setDisp Display.clear).advance

/-- `Dxyn` DRW Vx, Vy, n (R141): XOR the `n` rows at `I` onto the display with wrap-around, VF = collision;
MemOutOfRange, with nothing written, when a row lies above 4095. DEDUCED (log entry 22): the pseudocode, not the last
corner case. -/
def execDrwVxVyN (x y n : Nibble) (s : State) : Host.Outcome State Fault Refusal :=
  .next (match s.readRange s.i.toNat n.toNat with
    | some rows =>
      let drawn := drawRows (s.getV x) (s.getV y) 0 rows (s.disp, false)
      ((s.setV vf (flagOf drawn.2)).setDisp drawn.1).advance
    | none => s.raise .memOutOfRange (firstOutOfRange s.i))

end Sys2Proof.Machine
end

