-- ==== Sys2Proof/Machine/Flow.lean ====
section
/-! DEFINITION. Control transfer (41_flow.md) and the unknown word (40_step_cycle.md R87). `s.pc` is the address of the
executing instruction. -/

namespace Sys2Proof.Machine

/-- `00EE` RET (R101): pop and jump to the entry as stored; StackUnderflow when `SP = 0`. -/
def execRet (s : State) : Host.Outcome State Fault Refusal :=
  .next (match s.pop with
    | some (a, s') => s'.jump a
    | none => s.raise .stackUnderflow 0)

/-- `1nnn` JP nnn (R102). -/
def execJpNnn (nnn : Addr12) (s : State) : Host.Outcome State Fault Refusal := .next (s.jump (addrOf nnn))

/-- `2nnn` CALL nnn (R103): push `PC + 2`, jump; StackOverflow when `SP = 16`. -/
def execCallNnn (nnn : Addr12) (s : State) : Host.Outcome State Fault Refusal :=
  .next (match s.push (s.pc + 2) with
    | some s' => s'.jump (addrOf nnn)
    | none => s.raise .stackOverflow 16)

/-- `3xkk` SE Vx, kk (R104). -/
def execSeVxKk (x : Nibble) (kk : Byte) (s : State) : Host.Outcome State Fault Refusal :=
  .next (s.skipIf (s.getV x == kk))

/-- `4xkk` SNE Vx, kk (R105). -/
def execSneVxKk (x : Nibble) (kk : Byte) (s : State) : Host.Outcome State Fault Refusal :=
  .next (s.skipIf (s.getV x != kk))

/-- `5xy0` SE Vx, Vy (R106). -/
def execSeVxVy (x y : Nibble) (s : State) : Host.Outcome State Fault Refusal :=
  .next (s.skipIf (s.getV x == s.getV y))

/-- `9xy0` SNE Vx, Vy (R107). -/
def execSneVxVy (x y : Nibble) (s : State) : Host.Outcome State Fault Refusal :=
  .next (s.skipIf (s.getV x != s.getV y))

/-- `Bnnn` JP V0, nnn (R108). UNVERIFIED (log entry 6): canonical semantics, decision D26. -/
def execJpV0Nnn (nnn : Addr12) (s : State) : Host.Outcome State Fault Refusal :=
  .next (s.jump (indexedAddr nnn (s.getV 0)))

/-- An unknown word (R87): nothing but `Advance`. -/
def execUnknown (_w : Word) (s : State) : Host.Outcome State Fault Refusal := .next s.advance

end Sys2Proof.Machine
end

