-- ==== Sys2Proof/Machine/IndexMemory.lean ====
section
/-! DEFINITION. Index register and memory instructions (45_index_memory.md). No access changes `I` (R161). -/

namespace Sys2Proof.Machine

/-- `Annn` LD I, nnn (R160). UNVERIFIED (log entry 6): canonical semantics. -/
def execLdINnn (nnn : Addr12) (s : State) : Host.Outcome State Fault Refusal :=
  .next (s.setI (addrOf nnn)).advance

/-- `Fx1E` ADD I, Vx (R162): the exact sum; IndexOverflow when it exceeds 0xFFFF; VF is not written. -/
def execAddIVx (x : Nibble) (s : State) : Host.Outcome State Fault Refusal :=
  .next (if indexSum s.i (s.getV x) > 0xFFFF then s.raise .indexOverflow s.i
    else (s.setI (BitVec.ofNat 16 (indexSum s.i (s.getV x)))).advance)

/-- `Fx29` LD F, Vx (R163). -/
def execLdFVx (x : Nibble) (s : State) : Host.Outcome State Fault Refusal :=
  .next (s.setI (glyphAddr (s.getV x))).advance

/-- Store bytes from `I` on, or MemOutOfRange with nothing written (R164, R165). -/
def State.storeAtI (s : State) (bytes : List Byte) : State :=
  match s.writeRange s.i.toNat bytes with
  | some s' => s'.advance
  | none => s.raise .memOutOfRange (firstOutOfRange s.i)

/-- `Fx33` LD B, Vx (R164): hundreds, tens, units at `I`, `I + 1`, `I + 2`. -/
def execLdBVx (x : Nibble) (s : State) : Host.Outcome State Fault Refusal :=
  .next (s.storeAtI (bcdDigits (s.getV x)))

/-- `Fx55` LD [I], Vx (R165): `V[0]..V[x]` to `I .. I + x`. -/
def execLdMemIVx (x : Nibble) (s : State) : Host.Outcome State Fault Refusal :=
  .next (s.storeAtI (s.getVsUpTo x))

/-- `Fx65` LD Vx, [I] (R166): `V[0]..V[x]` from `I .. I + x`; MemOutOfRange with no register loaded. -/
def execLdVxMemI (x : Nibble) (s : State) : Host.Outcome State Fault Refusal :=
  .next (match s.readRange s.i.toNat (x.toNat + 1) with
    | some bytes => (s.setVs 0 bytes).advance
    | none => s.raise .memOutOfRange (firstOutOfRange s.i))

end Sys2Proof.Machine
end

