-- ==== Sys2Proof/Machine/KeypadTimers.lean ====
section
/-! DEFINITION. Keypad and timer instructions (44_keypad_timers.md). The timers have already counted when a meaning
runs (40_step_cycle.md R83). -/

namespace Sys2Proof.Machine

/-- Skip when key `V[x]` is in the wanted position; KeyIndexOutOfRange when `V[x] > 15` (R150, R151). -/
def State.skipOnKey (s : State) (x : Nibble) (pressed : Bool) : State :=
  if (s.getV x).toNat > 15 then s.raise .keyIndexOutOfRange (infoOfByte (s.getV x))
  else s.skipIf (s.keyDown (s.getV x).toNat == pressed)

/-- `Ex9E` SKP Vx (R150). -/
def execSkpVx (x : Nibble) (s : State) : Host.Outcome State Fault Refusal := .next (s.skipOnKey x true)

/-- `ExA1` SKNP Vx (R151). -/
def execSknpVx (x : Nibble) (s : State) : Host.Outcome State Fault Refusal := .next (s.skipOnKey x false)

/-- `Fx07` LD Vx, DT (R152). -/
def execLdVxDt (x : Nibble) (s : State) : Host.Outcome State Fault Refusal := .next (s.setV x s.dt).advance

/-- `Fx0A` LD Vx, K (R153): enter the key wait; the keypad is not looked at. -/
def execLdVxK (x : Nibble) (s : State) : Host.Outcome State Fault Refusal := .next (s.startWait x).advance

/-- `Fx15` LD DT, Vx (R154). -/
def execLdDtVx (x : Nibble) (s : State) : Host.Outcome State Fault Refusal := .next (s.setDt (s.getV x)).advance

/-- `Fx18` LD ST, Vx (R155). -/
def execLdStVx (x : Nibble) (s : State) : Host.Outcome State Fault Refusal := .next (s.setSt (s.getV x)).advance

end Sys2Proof.Machine
end

