-- ==== Sys2Proof/Machine/Cycle.lean ====
section
/-! DEFINITION. The step cycle: the three kinds of step and the fetch-decode-execute sequence (40_step_cycle.md R80 to
R89). -/

namespace Sys2Proof.Machine

/-- A Running step after its inputs are sampled (R83 to R85): count the timers, fetch, decode, execute. -/
def runInstruction (s : State) : Host.Outcome State Fault Refusal :=
  match s.tickTimers.fetch with
  | some word => exec (decodeWord word) s.tickTimers
  | none => .next (s.tickTimers.raise .fetchOutOfRange s.pc)

/-- The step after its start, by kind: a FAULTED step changes nothing (R81), an AwaitingKey step scans the keypad
(R82), a Running step executes one instruction (R83 to R86). -/
def stepByMode (s : State) : Host.Outcome State Fault Refusal :=
  match s.mode with
  | .faulted => .next s
  | .awaitingKey => .next s.awaitKey
  | .running => runInstruction s

end Sys2Proof.Machine
end

