-- ==== Sys2Proof/Machine/Step.lean ====
section
/-! DEFINITION. One STEP of the machine (40_step_cycle.md R80), and placing the next instruction for the host. -/

namespace Sys2Proof.Machine

/-- `STEP` (R80, R89): sample the inputs, clear `display_changed`, then the kind of step that is due. -/
def step (s : State) : Host.Outcome State Fault Refusal := stepByMode s.beginStep

/-- `s` with the instruction whose table-numbered bits are `w` stored where the next step fetches it
(log entry 17). -/
def State.withFetchWord (s : State) (nbits w : Nat) : State := s.placeTableWord nbits w

end Sys2Proof.Machine
end

