-- ==== Sys2Proof/WellFormed.lean ====
section
/-! DEFINITION. Which terms of `Instr` are instructions of this hardware. Operand fields have the widths of
30_encoding.md R61 by their types, so the one check left is that an `unknown` word is unknown (R66). -/

namespace Sys2Proof

/-- An instruction the decoder can give: an `unknown` word matches no row of R64 (R66). -/
def WellFormed : Instr → Bool
  | .cls => true
  | .ret => true
  | .jpNnn _ => true
  | .callNnn _ => true
  | .seVxKk _ _ => true
  | .sneVxKk _ _ => true
  | .seVxVy _ _ => true
  | .ldVxKk _ _ => true
  | .addVxKk _ _ => true
  | .ldVxVy _ _ => true
  | .orVxVy _ _ => true
  | .andVxVy _ _ => true
  | .xorVxVy _ _ => true
  | .addVxVy _ _ => true
  | .subVxVy _ _ => true
  | .shrVx _ _ => true
  | .subnVxVy _ _ => true
  | .shlVx _ _ => true
  | .sneVxVy _ _ => true
  | .ldINnn _ => true
  | .jpV0Nnn _ => true
  | .rndVxKk _ _ => true
  | .drwVxVyN _ _ _ => true
  | .skpVx _ => true
  | .sknpVx _ => true
  | .ldVxDt _ => true
  | .ldVxK _ => true
  | .ldDtVx _ => true
  | .ldStVx _ => true
  | .addIVx _ => true
  | .ldFVx _ => true
  | .ldBVx _ => true
  | .ldMemIVx _ => true
  | .ldVxMemI _ => true
  | .unknown w => isUnknownWord w

end Sys2Proof
end

