-- ==== Sys2Proof/Safety.lean ====
section
/-! DEFINITION. The terms in which claims are stated: what the core's state is apart from ports, the invariants, the
sprite mask, the program-counter transitions, a finished run. -/

namespace Sys2Proof.Safety

open Sys2Proof.Machine

/-- `t` differs from `s` at most in the ports of a STEP and the model's own fields: all state of 10_state.md R11 to
R21 and R40, and the font table, is the same. -/
def SameCore (s t : State) : Prop :=
  t = { s with keypad := t.keypad, rnd := t.rnd, displayChanged := t.displayChanged, inputs := t.inputs, tick := t.tick }

/-- Every byte of memory reads in `t` as in `s`. -/
def SameMemory (s t : State) : Prop := ∀ a : Nat, t.readMem a = s.readMem a

/-- Every register but `x` holds in `t` what it holds in `s`. -/
def SameRegsBut (x : Nibble) (s t : State) : Prop := ∀ r : Nibble, r ≠ x → t.getV r = s.getV r

/-- The outcome of a fault: the latch and `display_changed`, and nothing else (60_exceptions.md R172). -/
def Faulted (cause : FaultCause) (info : Nat) (s t : State) : Prop :=
  t = { s with fault := t.fault, displayChanged := false } ∧
  ∃ r : FaultRecord, t.fault = some r ∧ r.cause = cause ∧ r.pc = s.pc ∧ r.info.toNat = info

/-! ### Invariants -/

/-- Memory has its canonical form. -/
def MemoryCanonical (s : State) : Prop := s.mem.wf

/-- What a record in the fault latch says of the frozen state (60_exceptions.md R171, R172). -/
def RecordFits (s : State) (r : FaultRecord) : Prop :=
  r.pc = s.pc ∧
  match r.cause with
  | .fetchOutOfRange => r.info = s.pc ∧ s.pc.toNat > 4094
  | .memOutOfRange => r.info.toNat = max s.i.toNat 4096 ∧ s.i.toNat + 15 > 4095
  | .stackOverflow => r.info = 16 ∧ s.sp.val = 16
  | .stackUnderflow => r.info = 0 ∧ s.sp.val = 0
  | .keyIndexOutOfRange => 15 < r.info.toNat ∧ ∃ x : Nibble, r.info.toNat = (s.getV x).toNat
  | .indexOverflow => r.info = s.i ∧ ∃ x : Nibble, s.i.toNat + (s.getV x).toNat > 0xFFFF

/-- A latched fault fits the state and no key wait is pending with it. -/
def FaultConsistent (s : State) : Prop := ∀ r : FaultRecord, s.fault = some r → RecordFits s r ∧ s.wait = false

/-- `PC` is at most the largest target of `Bnnn`, and every stack entry at most 4096 (10_state.md R15). -/
def AddressesBounded (s : State) : Prop :=
  s.pc.toNat ≤ 0x10FE ∧ ∀ k : Fin 16, (s.stack[k.val]).toNat ≤ 4096

/-! ### Vocabulary of single rules -/

/-- The sprite mask `S[c][r]` of `Dxyn` in state `s` (43_display.md R142). -/
def SpriteMask (s : State) (x y n : Nibble) (c : Fin 64) (r : Fin 32) : Prop :=
  ∃ row bit : Nat, row < n.toNat ∧ bit < 8 ∧ c.val = ((s.getV x).toNat + bit) % 64 ∧
    r.val = ((s.getV y).toNat + row) % 32 ∧ (s.readMem (s.i.toNat + row)).getLsbD (7 - bit) = true

/-- The program-counter transition of an instruction that completes (40_step_cycle.md R86). -/
def PcTransition (i : Instr) (s : State) (a : Word) : Prop :=
  match i with
  | .seVxKk _ _ | .sneVxKk _ _ | .seVxVy _ _ | .sneVxVy _ _ | .skpVx _ | .sknpVx _ => a = s.pc + 2 ∨ a = s.pc + 4
  | .jpNnn nnn | .callNnn nnn => a.toNat = nnn.toNat
  | .jpV0Nnn nnn => a.toNat = nnn.toNat + (s.getV 0).toNat
  | .ret => ∃ k : Fin 16, k.val + 1 = s.sp.val ∧ a = s.stack[k.val]
  | .cls | .ldVxKk _ _ | .addVxKk _ _ | .ldVxVy _ _ | .orVxVy _ _ | .andVxVy _ _ | .xorVxVy _ _ | .addVxVy _ _
  | .subVxVy _ _ | .shrVx _ _ | .subnVxVy _ _ | .shlVx _ _ | .ldINnn _ | .rndVxKk _ _ | .drwVxVyN _ _ _ | .ldVxDt _
  | .ldVxK _ | .ldDtVx _ | .ldStVx _ | .addIVx _ | .ldFVx _ | .ldBVx _ | .ldMemIVx _ | .ldVxMemI _
  | .unknown _ => a = s.pc + 2

/-- The instruction's destination registers include `V[r]` (10_state.md R12, and R26, column V). -/
def WritesReg (i : Instr) (r : Nibble) : Prop :=
  match i with
  | .ldVxKk x _ | .addVxKk x _ | .ldVxVy x _ | .orVxVy x _ | .andVxVy x _ | .xorVxVy x _ | .rndVxKk x _ | .ldVxDt x => r = x
  | .addVxVy x _ | .subVxVy x _ | .shrVx x _ | .subnVxVy x _ | .shlVx x _ => r = x ∨ r = vf
  | .drwVxVyN _ _ _ => r = vf
  | .ldVxMemI x => r.toNat ≤ x.toNat
  | .cls | .ret | .jpNnn _ | .callNnn _ | .seVxKk _ _ | .sneVxKk _ _ | .seVxVy _ _ | .sneVxVy _ _ | .ldINnn _
  | .jpV0Nnn _ | .skpVx _ | .sknpVx _ | .ldVxK _ | .ldDtVx _ | .ldStVx _ | .addIVx _ | .ldFVx _ | .ldBVx _ | .ldMemIVx _
  | .unknown _ => False

/-- The instruction, executed in `s`, meets the condition of a fault it may raise, and `info` is what the record holds
(60_exceptions.md R171, rows 2 to 6; row 1 is the fetch's). -/
def Raises (i : Instr) (s : State) (cause : FaultCause) (info : Nat) : Prop :=
  match i with
  | .drwVxVyN _ _ n => cause = .memOutOfRange ∧ 0 < n.toNat ∧ s.i.toNat + n.toNat > 4096 ∧ info = max s.i.toNat 4096
  | .ldBVx _ => cause = .memOutOfRange ∧ s.i.toNat + 2 > 4095 ∧ info = max s.i.toNat 4096
  | .ldMemIVx x | .ldVxMemI x => cause = .memOutOfRange ∧ s.i.toNat + x.toNat > 4095 ∧ info = max s.i.toNat 4096
  | .callNnn _ => cause = .stackOverflow ∧ s.sp.val = 16 ∧ info = 16
  | .ret => cause = .stackUnderflow ∧ s.sp.val = 0 ∧ info = 0
  | .skpVx x | .sknpVx x => cause = .keyIndexOutOfRange ∧ (s.getV x).toNat > 15 ∧ info = (s.getV x).toNat
  | .addIVx x => cause = .indexOverflow ∧ s.i.toNat + (s.getV x).toNat > 0xFFFF ∧ info = s.i.toNat
  | .cls | .jpNnn _ | .seVxKk _ _ | .sneVxKk _ _ | .seVxVy _ _ | .ldVxKk _ _ | .addVxKk _ _ | .ldVxVy _ _
  | .orVxVy _ _ | .andVxVy _ _ | .xorVxVy _ _ | .addVxVy _ _ | .subVxVy _ _ | .shrVx _ _ | .subnVxVy _ _ | .shlVx _ _
  | .sneVxVy _ _ | .ldINnn _ | .jpV0Nnn _ | .rndVxKk _ _ | .ldVxDt _ | .ldVxK _ | .ldDtVx _ | .ldStVx _ | .ldFVx _
  | .unknown _ => False

/-- A finished run as 70_reset_and_hazards.md R204 offers it: idle in a jump to itself with both timers 0. -/
def Finished (s : State) : Prop :=
  s.mode = .running ∧ s.dt = 0 ∧ s.st = 0 ∧ s.pc.toNat ≤ 4094 ∧ s.pc.toNat ≤ 0xFFF ∧
  (s.readMem s.pc.toNat).toNat * 256 + (s.readMem (s.pc.toNat + 1)).toNat = 0x1000 + s.pc.toNat

end Sys2Proof.Safety
end

