-- ==== Sys2Proof/Certificates/Slice0/Obligations.lean ====
section
/-! DEFINITION. The statements for the provers. Each docstring names the rule of spec/ it formalises.

A next state is described as `t = { s with … }`, which is its frame: every field not named keeps its value. `PC + 2` is
a 16-bit sum: after a successful fetch it never wraps (10_state.md R15). For a state whose `PC` is above 4094, which no
step hands to `exec`, the wrapped sum is the model's choice (log entry 13). -/

open Sys2Proof Sys2Proof.Machine Sys2Proof.Safety

/-! ### Encoding and decoding (30_encoding.md) -/

/-- Words written out from R64's patterns decode to their instructions. The map is decision D1 (log entry 5). -/
def Obligations.SampleWordsDecode : Prop :=
  decodeWord 0x00E0 = .cls ∧ decodeWord 0x2F00 = .callNnn 0xF00 ∧ decodeWord 0x5120 = .seVxVy 1 2 ∧
  decodeWord 0x6A03 = .ldVxKk 10 0x03 ∧ decodeWord 0x81AE = .shlVx 1 10 ∧ decodeWord 0xC30F = .rndVxKk 3 0x0F ∧
  decodeWord 0xD345 = .drwVxVyN 3 4 5 ∧ decodeWord 0xE5A1 = .sknpVx 5 ∧ decodeWord 0xFA18 = .ldStVx 10 ∧
  decodeWord 0xF155 = .ldMemIVx 1 ∧ decodeWord 0x5AB1 = .unknown 0x5AB1

/-- R60, R61: the operand fields by arithmetic on the word, and the decoder is total and takes two bytes, the high one
first, leaving the rest (R67; 20_memory.md R43). -/
def Obligations.FieldsAndByteOrder : Prop :=
  (∀ w : Word, (classOf w).toNat = w.toNat / 4096 ∧ (xOf w).toNat = w.toNat / 256 % 16 ∧
    (yOf w).toNat = w.toNat / 16 % 16 ∧ (nOf w).toNat = w.toNat % 16 ∧ (kkOf w).toNat = w.toNat % 256 ∧
    (nnnOf w).toNat = w.toNat % 4096) ∧
  ∀ (hi lo : Byte) (rest : List Byte), ∃ w : Word,
    w.toNat = hi.toNat * 256 + lo.toNat ∧ decode (hi :: lo :: rest) = .ok (decodeWord w, rest)

/-- Decode of encode, for every well-formed instruction: no operand bit is dropped (R62, R64; decision D1). -/
def Obligations.DecodeOfEncode : Prop :=
  ∀ i : Instr, WellFormed i = true →
    decodeWord (encode i) = i ∧ ∀ rest : List Byte, decode (encodeBytes i ++ rest) = .ok (i, rest)

/-- Encode of decode, for every word: each of the 65536 words is exactly one well-formed instruction (R60, R66). -/
def Obligations.EncodeOfDecode : Prop :=
  ∀ w : Word, encode (decodeWord w) = w ∧ WellFormed (decodeWord w) = true

/-- The decoder selects row `k` of R64 iff `w & mask = match`, and UNKNOWN iff no row matches (R64, R66; decisions D1,
D2, log entry 5). -/
def Obligations.DecoderFollowsOpcodeMap : Prop :=
  ∀ w : Word,
    (∀ (k : Nat) (h : k < opcodeRows.length),
      (decodeWord w).row = k + 1 ↔ w &&& opcodeRows[k].1 = opcodeRows[k].2) ∧
    ((decodeWord w).row = 35 ↔ isUnknownWord w = true)

/-! ### The step cycle (40_step_cycle.md) -/

/-- A Running step whose two bytes decode to a well-formed `i` is `exec` of `i` after the step's start: inputs
sampled, `display_changed` cleared, timers counted (R80, R83 to R85, R89). -/
def Obligations.StepRunsDecodedInstruction : Prop :=
  ∀ (s : State) (i : Instr), s.fault = none → s.wait = false → s.pc.toNat ≤ 4094 → WellFormed i = true →
    decode [s.readMem s.pc.toNat, s.readMem (s.pc.toNat + 1)] = .ok (i, []) →
    step s = exec i s.beginStep.tickTimers

/-- What the start of a step does: the ports take the host's next input where one is listed, `display_changed` is 0,
and no state of the core changes (10_state.md R24). The list of inputs is the model's own (log entry 1). -/
def Obligations.StepStartSamplesInputs : Prop :=
  ∀ s : State, SameCore s s.beginStep ∧ s.beginStep.displayChanged = false ∧ s.beginStep.tick = s.tick + 1 ∧
    ∀ (p : StepInput) (rest : List StepInput), s.inputs = p :: rest →
      s.beginStep.keypad = p.keypad ∧ s.beginStep.rnd = p.rnd ∧ s.beginStep.inputs = rest

/-- R83: the timers count down by one in every Running step, before the instruction, and in no other step. -/
def Obligations.TimersCountRunningSteps : Prop :=
  ∀ s : State, ∃ t : State, step s = .next t ∧
    (s.mode ≠ .running → t.dt = s.dt ∧ t.st = s.st) ∧
    (s.mode = .running →
      ((∀ (w : Word) (x : Nibble), s.fetch = some w → decodeWord w ≠ .ldDtVx x) → t.dt.toNat = s.dt.toNat - 1) ∧
      ((∀ (w : Word) (x : Nibble), s.fetch = some w → decodeWord w ≠ .ldStVx x) → t.st.toNat = s.st.toNat - 1) ∧
      ∀ (w : Word) (x : Nibble), s.fetch = some w →
        (decodeWord w = .ldDtVx x → t.dt = s.getV x) ∧ (decodeWord w = .ldStVx x → t.st = s.getV x) ∧
        (decodeWord w = .ldVxDt x → (t.getV x).toNat = s.dt.toNat - 1))

/-- R91: STEP is total, from every state: it never refuses and never stops. -/
def Obligations.StepIsTotal : Prop := ∀ s : State, ∃ t : State, step s = .next t

/-- R81 (decisions D7, D15, log entry 12): a FAULTED step changes no state of the core, whatever its inputs. -/
def Obligations.FaultedStepChangesNothing : Prop :=
  ∀ s : State, s.fault ≠ none → ∃ t : State, step s = .next t ∧ SameCore s t ∧ t.displayChanged = false ∧
    t.tone = s.tone

/-- R82: an AwaitingKey step writes the least pressed key to the target register and ends the wait, or changes nothing
when no key is pressed; no timer counts and no instruction runs. -/
def Obligations.AwaitingKeyTakesLowestKey : Prop :=
  ∀ s : State, s.fault = none → s.wait = true →
    (s.beginStep.keypad = 0 → ∃ t : State, step s = .next t ∧ SameCore s t ∧ t.displayChanged = false) ∧
    ∀ k : Nat, k < 16 → s.beginStep.keypad.getLsbD k = true → (∀ j : Nat, j < k → s.beginStep.keypad.getLsbD j = false) →
      ∃ t : State, step s = .next t ∧ SameCore { s with v := t.v, wait := false } t ∧ t.displayChanged = false ∧
        (t.getV s.wreg).toNat = k ∧ SameRegsBut s.wreg s t

/-- R87: an unknown word is a complete Running step that only advances; `display_changed` is 0. -/
def Obligations.UnknownWordAdvances : Prop :=
  (∀ (w : Word) (s : State), ∃ t : State, exec (.unknown w) s = .next t ∧ t = { s with pc := s.pc + 2 } ∧
    SameMemory s t) ∧
  ∀ (s : State) (w : Word), s.mode = .running → s.fetch = some w → isUnknownWord w = true →
    ∃ t : State, step s = .next t ∧ t.displayChanged = false ∧
      SameCore { s with pc := s.pc + 2, dt := t.dt, st := t.st } t ∧
      t.dt.toNat = s.dt.toNat - 1 ∧ t.st.toNat = s.st.toNat - 1

/-- R84, 60_exceptions.md R173 (decision D9, log entry 11): a Running step with `PC > 4094` faults with cause 1 and
keeps only its timer decrement. -/
def Obligations.FetchBeyondMemoryFaults : Prop :=
  ∀ s : State, s.mode = .running → s.pc.toNat > 4094 → ∃ t : State, step s = .next t ∧
    Faulted .fetchOutOfRange s.pc.toNat s.beginStep.tickTimers t ∧
    t.dt.toNat = s.dt.toNat - 1 ∧ t.st.toNat = s.st.toNat - 1

/-- R88 (decision D29, log entry 19): `display_changed` is 1 exactly after a Running step that completed `00E0` or
`Dxyn` without fault; `tone` is 1 iff `ST > 0` after the step. -/
def Obligations.OutputsOfAStep : Prop :=
  ∀ s : State, ∃ t : State, step s = .next t ∧
    (t.displayChanged = true ↔ s.mode = .running ∧ t.fault = none ∧
      ∃ w : Word, s.fetch = some w ∧ (decodeWord w = .cls ∨ ∃ x y n : Nibble, decodeWord w = .drwVxVyN x y n)) ∧
    (t.tone = true ↔ 0 < t.st.toNat) ∧ t.outputs = (t.disp, t.displayChanged, t.tone, t.fault)

/-- R90: the transitions between the three states. A step that enters FAULTED records its own `PC`. -/
def Obligations.StateMachineTransitions : Prop :=
  ∀ s : State, ∃ t : State, step s = .next t ∧
    (s.mode = .faulted → t.mode = .faulted) ∧
    (s.mode = .awaitingKey →
      t.mode = if s.beginStep.keypad = 0 then .awaitingKey else .running) ∧
    (s.mode = .running →
      (t.mode = .awaitingKey ↔ ∃ (w : Word) (x : Nibble), s.fetch = some w ∧ decodeWord w = .ldVxK x) ∧
      (t.mode = .faulted → ∃ r : FaultRecord, t.fault = some r ∧ r.pc = s.pc))

/-! ### Control transfer (41_flow.md) -/

/-- R102: `JP nnn` from any `PC` gives `PC = nnn` and changes nothing else. -/
def Obligations.JumpIsAbsolute : Prop :=
  ∀ (nnn : Addr12) (s : State), ∃ t : State, exec (.jpNnn nnn) s = .next t ∧ t = { s with pc := t.pc } ∧
    t.pc.toNat = nnn.toNat ∧ SameMemory s t

/-- R108 (decision D26, log entry 6): `JP V0, nnn` gives the exact sum, not reduced, and changes nothing else. -/
def Obligations.IndexedJumpAddsV0 : Prop :=
  ∀ (nnn : Addr12) (s : State), ∃ t : State, exec (.jpV0Nnn nnn) s = .next t ∧ t = { s with pc := t.pc } ∧
    t.pc.toNat = nnn.toNat + (s.getV 0).toNat ∧ SameMemory s t

/-- R103: `CALL nnn` with room on the stack pushes `PC + 2`, counts the entry and jumps. Entries of 16 bits: decision
D13; a stack apart from memory: decision D28 (log entries 10 and 20). -/
def Obligations.CallPushesReturnAddress : Prop :=
  ∀ (nnn : Addr12) (s : State), s.sp.val < 16 → ∃ t : State, exec (.callNnn nnn) s = .next t ∧
    t = { s with pc := t.pc, sp := t.sp, stack := t.stack } ∧ t.pc.toNat = nnn.toNat ∧ t.sp.val = s.sp.val + 1 ∧
    (∀ k : Fin 16, t.stack[k.val] = if k.val = s.sp.val then s.pc + 2 else s.stack[k.val]) ∧ SameMemory s t

/-- R101: `RET` with an entry jumps to it as stored and uncounts it. That the popped entry keeps its value is decision
D28 (log entry 20). -/
def Obligations.ReturnJumpsToTopEntry : Prop :=
  ∀ s : State, 0 < s.sp.val → ∃ t : State, exec .ret s = .next t ∧ t = { s with pc := t.pc, sp := t.sp } ∧
    t.sp.val + 1 = s.sp.val ∧ (∀ k : Fin 16, k.val + 1 = s.sp.val → t.pc = s.stack[k.val]) ∧ SameMemory s t

/-- R101, R103 (decision D10, log entry 11): `CALL` on a full stack and `RET` on an empty one only latch the fault. -/
def Obligations.StackLimitsFault : Prop :=
  (∀ (nnn : Addr12) (s : State), s.sp.val = 16 →
    ∃ t : State, exec (.callNnn nnn) s = .next t ∧ Faulted .stackOverflow 16 s t) ∧
  ∀ s : State, s.sp.val = 0 → ∃ t : State, exec .ret s = .next t ∧ Faulted .stackUnderflow 0 s t

/-- A `CALL` followed by a `RET` comes back to the instruction after the call with the stack pointer as before; of the
stack only the entry the call wrote has changed (R101, R103; that the pop leaves it is decision D28, log entry 20). -/
def Obligations.CallThenReturnComesBack : Prop :=
  ∀ (nnn : Addr12) (s : State), s.sp.val < 16 → ∃ t u : State, exec (.callNnn nnn) s = .next t ∧
    exec .ret t = .next u ∧ u = { s with pc := s.pc + 2, stack := u.stack } ∧
    ∀ k : Fin 16, u.stack[k.val] = if k.val = s.sp.val then s.pc + 2 else s.stack[k.val]

/-- R104 to R107: the four register skips go to `PC + 4` when their condition holds, else to `PC + 2`, and change
nothing else. -/
def Obligations.RegisterSkips : Prop :=
  (∀ (x : Nibble) (kk : Byte) (s : State), ∃ t : State, exec (.seVxKk x kk) s = .next t ∧
    t = { s with pc := if s.getV x = kk then s.pc + 4 else s.pc + 2 } ∧ SameMemory s t) ∧
  (∀ (x : Nibble) (kk : Byte) (s : State), ∃ t : State, exec (.sneVxKk x kk) s = .next t ∧
    t = { s with pc := if s.getV x = kk then s.pc + 2 else s.pc + 4 } ∧ SameMemory s t) ∧
  (∀ (x y : Nibble) (s : State), ∃ t : State, exec (.seVxVy x y) s = .next t ∧
    t = { s with pc := if s.getV x = s.getV y then s.pc + 4 else s.pc + 2 } ∧ SameMemory s t) ∧
  ∀ (x y : Nibble) (s : State), ∃ t : State, exec (.sneVxVy x y) s = .next t ∧
    t = { s with pc := if s.getV x = s.getV y then s.pc + 2 else s.pc + 4 } ∧ SameMemory s t

/-! ### Register and ALU instructions (42_alu.md) -/

/-- R120, R122: load immediate and copy write `V[x]` and advance; every other register, VF among them unless it is
`V[x]`, is unchanged. -/
def Obligations.LoadsAndCopies : Prop :=
  (∀ (x : Nibble) (kk : Byte) (s : State), ∃ t : State, exec (.ldVxKk x kk) s = .next t ∧
    t = { s with v := t.v, pc := s.pc + 2 } ∧ t.getV x = kk ∧ SameRegsBut x s t ∧ SameMemory s t) ∧
  ∀ (x y : Nibble) (s : State), ∃ t : State, exec (.ldVxVy x y) s = .next t ∧
    t = { s with v := t.v, pc := s.pc + 2 } ∧ t.getV x = s.getV y ∧ SameRegsBut x s t ∧ SameMemory s t

/-- R121 (VF not written: decision D6, log entry 6): add immediate modulo 256 writes `V[x]` only. -/
def Obligations.AddImmediateWraps : Prop :=
  ∀ (x : Nibble) (kk : Byte) (s : State), ∃ t : State, exec (.addVxKk x kk) s = .next t ∧
    t = { s with v := t.v, pc := s.pc + 2 } ∧ (t.getV x).toNat = ((s.getV x).toNat + kk.toNat) % 256 ∧
    SameRegsBut x s t ∧ SameMemory s t

/-- R123 to R125 (VF not written: decision D6, log entry 6): OR, AND, XOR bit by bit into `V[x]` only. -/
def Obligations.LogicOperations : Prop :=
  ∀ (x y : Nibble) (s : State),
    (∃ t : State, exec (.orVxVy x y) s = .next t ∧ t = { s with v := t.v, pc := s.pc + 2 } ∧
      (∀ k : Nat, (t.getV x).getLsbD k = ((s.getV x).getLsbD k || (s.getV y).getLsbD k)) ∧
      SameRegsBut x s t ∧ SameMemory s t) ∧
    (∃ t : State, exec (.andVxVy x y) s = .next t ∧ t = { s with v := t.v, pc := s.pc + 2 } ∧
      (∀ k : Nat, (t.getV x).getLsbD k = ((s.getV x).getLsbD k && (s.getV y).getLsbD k)) ∧
      SameRegsBut x s t ∧ SameMemory s t) ∧
    ∃ t : State, exec (.xorVxVy x y) s = .next t ∧ t = { s with v := t.v, pc := s.pc + 2 } ∧
      (∀ k : Nat, (t.getV x).getLsbD k = ((s.getV x).getLsbD k ^^ (s.getV y).getLsbD k)) ∧
      SameRegsBut x s t ∧ SameMemory s t

/-- R126, R133: ADD leaves the sum modulo 256 and VF = 1 iff the true sum exceeds 255. For `x = F` the flag is left:
decision D5; operands are latched: decision D4 (log entry 7). -/
def Obligations.AddWithCarry : Prop :=
  ∀ (x y : Nibble) (s : State), ∃ t : State, exec (.addVxVy x y) s = .next t ∧
    t = { s with v := t.v, pc := s.pc + 2 } ∧
    t.getV vf = (if (s.getV x).toNat + (s.getV y).toNat > 255 then 1 else 0) ∧
    (x ≠ vf → (t.getV x).toNat = ((s.getV x).toNat + (s.getV y).toNat) % 256) ∧
    (∀ r : Nibble, r ≠ x → r ≠ vf → t.getV r = s.getV r) ∧ SameMemory s t

/-- R127, R129, R133: SUB and SUBN leave the difference modulo 256 and VF = 1 iff the minuend is strictly greater. The
tie is 90_conflicts.md C1 (log entry 8). For `x = F` the difference is left: decision D5 (log entry 7). -/
def Obligations.SubtractWithBorrowFlag : Prop :=
  ∀ (x y : Nibble) (s : State),
    (∃ t : State, exec (.subVxVy x y) s = .next t ∧ t = { s with v := t.v, pc := s.pc + 2 } ∧
      (t.getV x).toNat = ((s.getV x).toNat + 256 - (s.getV y).toNat) % 256 ∧
      (x ≠ vf → t.getV vf = if (s.getV x).toNat > (s.getV y).toNat then 1 else 0) ∧
      (∀ r : Nibble, r ≠ x → r ≠ vf → t.getV r = s.getV r) ∧ SameMemory s t) ∧
    ∃ t : State, exec (.subnVxVy x y) s = .next t ∧ t = { s with v := t.v, pc := s.pc + 2 } ∧
      (t.getV x).toNat = ((s.getV y).toNat + 256 - (s.getV x).toNat) % 256 ∧
      (x ≠ vf → t.getV vf = if (s.getV y).toNat > (s.getV x).toNat then 1 else 0) ∧
      (∀ r : Nibble, r ≠ x → r ≠ vf → t.getV r = s.getV r) ∧ SameMemory s t

/-- R128, R130, R133: the shifts move `V[x]` by one, whatever `y`, and VF is the bit moved out. For `x = F` the shifted
value is left: decision D5 (log entry 7). -/
def Obligations.SingleRegisterShifts : Prop :=
  ∀ (x y : Nibble) (s : State),
    (∃ t : State, exec (.shrVx x y) s = .next t ∧ t = { s with v := t.v, pc := s.pc + 2 } ∧
      (t.getV x).toNat = (s.getV x).toNat / 2 ∧
      (x ≠ vf → (t.getV vf).toNat = (s.getV x).toNat % 2) ∧
      (∀ r : Nibble, r ≠ x → r ≠ vf → t.getV r = s.getV r) ∧ SameMemory s t) ∧
    ∃ t : State, exec (.shlVx x y) s = .next t ∧ t = { s with v := t.v, pc := s.pc + 2 } ∧
      (t.getV x).toNat = (s.getV x).toNat * 2 % 256 ∧
      (x ≠ vf → (t.getV vf).toNat = (s.getV x).toNat / 128) ∧
      (∀ r : Nibble, r ≠ x → r ≠ vf → t.getV r = s.getV r) ∧ SameMemory s t

/-- R131 (decisions D6, D17, log entries 1 and 6): RND masks the byte given to this step, for every such byte. -/
def Obligations.RandomByteIsMasked : Prop :=
  ∀ (x : Nibble) (kk : Byte) (s : State), ∃ t : State, exec (.rndVxKk x kk) s = .next t ∧
    t = { s with v := t.v, pc := s.pc + 2 } ∧
    (∀ k : Nat, (t.getV x).getLsbD k = (s.rnd.getLsbD k && kk.getLsbD k)) ∧ SameRegsBut x s t ∧ SameMemory s t

/-! ### Display instructions (43_display.md) -/

/-- R140: CLS turns every pixel off, reports a change and advances; nothing else changes. -/
def Obligations.ClearDisplay : Prop :=
  ∀ s : State, ∃ t : State, exec .cls s = .next t ∧
    t = { s with disp := t.disp, displayChanged := true, pc := s.pc + 2 } ∧
    (∀ (c : Fin 64) (r : Fin 32), t.disp.pixel c r = false) ∧ SameMemory s t

/-- R141, R142: the loop of DRW equals its closed form: every pixel is XORed with the sprite mask, and VF = 1 iff some
lit pixel lies under the mask. Latched coordinates: decision D4; `n = 0`: decision D24 (log entries 7 and 20). -/
def Obligations.DrawEqualsSpriteMask : Prop :=
  ∀ (x y n : Nibble) (s : State), n = 0 ∨ s.i.toNat + n.toNat ≤ 4096 →
    ∃ t : State, exec (.drwVxVyN x y n) s = .next t ∧
      t = { s with v := t.v, disp := t.disp, displayChanged := true, pc := s.pc + 2 } ∧
      (∀ (c : Fin 64) (r : Fin 32),
        (t.disp.pixel c r = true ↔ ¬ (s.disp.pixel c r = true ↔ SpriteMask s x y n c r))) ∧
      (t.getV vf = 0 ∨ t.getV vf = 1) ∧
      (t.getV vf = 1 ↔ ∃ (c : Fin 64) (r : Fin 32), s.disp.pixel c r = true ∧ SpriteMask s x y n c r) ∧
      SameRegsBut vf s t ∧ SameMemory s t

/-- R141 (decision D8, log entry 11): a sprite that reaches above 4095 faults with nothing drawn. -/
def Obligations.DrawBeyondMemoryFaults : Prop :=
  ∀ (x y n : Nibble) (s : State), n ≠ 0 → s.i.toNat + n.toNat > 4096 →
    ∃ t : State, exec (.drwVxVyN x y n) s = .next t ∧ Faulted .memOutOfRange (max s.i.toNat 4096) s t

/-- R141: drawing the same sprite twice restores the display. By the pseudocode the second draw reports a collision iff
the first lit a pixel; where the first reported none, that is iff the sprite has a set bit. The last corner case of R141
says so of every display, which the pseudocode contradicts (log entry 22). `x` and `y` are not F, since the first draw
writes VF. -/
def Obligations.DrawTwiceRestores : Prop :=
  ∀ (x y n : Nibble) (s : State), x ≠ vf → y ≠ vf → (n = 0 ∨ s.i.toNat + n.toNat ≤ 4096) →
    ∃ t u : State, exec (.drwVxVyN x y n) s = .next t ∧ exec (.drwVxVyN x y n) t = .next u ∧ u.disp = s.disp ∧
      (u.getV vf = 1 ↔ ∃ (c : Fin 64) (r : Fin 32), s.disp.pixel c r = false ∧ SpriteMask s x y n c r) ∧
      (t.getV vf = 0 →
        (u.getV vf = 1 ↔ ∃ row : Nat, row < n.toNat ∧ s.readMem (s.i.toNat + row) ≠ 0))

/-! ### Keypad and timer instructions (44_keypad_timers.md) -/

/-- R150, R151: the key skips, when `V[x]` is a key index. -/
def Obligations.KeySkips : Prop :=
  ∀ (x : Nibble) (s : State), (s.getV x).toNat ≤ 15 →
    (∃ t : State, exec (.skpVx x) s = .next t ∧
      t = { s with pc := if s.keypad.getLsbD (s.getV x).toNat = true then s.pc + 4 else s.pc + 2 } ∧ SameMemory s t) ∧
    ∃ t : State, exec (.sknpVx x) s = .next t ∧
      t = { s with pc := if s.keypad.getLsbD (s.getV x).toNat = true then s.pc + 2 else s.pc + 4 } ∧ SameMemory s t

/-- R150, R151 (decision D11, log entry 11): an index above 15 is not masked; it faults. -/
def Obligations.KeyIndexFaults : Prop :=
  ∀ (x : Nibble) (s : State), (s.getV x).toNat > 15 →
    (∃ t : State, exec (.skpVx x) s = .next t ∧ Faulted .keyIndexOutOfRange (s.getV x).toNat s t) ∧
    ∃ t : State, exec (.sknpVx x) s = .next t ∧ Faulted .keyIndexOutOfRange (s.getV x).toNat s t

/-- R152, R154, R155: the three byte transfers between a register and a timer; `tone` follows a store to `ST` at once. -/
def Obligations.TimerTransfers : Prop :=
  ∀ (x : Nibble) (s : State),
    (∃ t : State, exec (.ldVxDt x) s = .next t ∧ t = { s with v := t.v, pc := s.pc + 2 } ∧ t.getV x = s.dt ∧
      SameRegsBut x s t ∧ SameMemory s t) ∧
    (∃ t : State, exec (.ldDtVx x) s = .next t ∧ t = { s with dt := s.getV x, pc := s.pc + 2 } ∧ SameMemory s t) ∧
    ∃ t : State, exec (.ldStVx x) s = .next t ∧ t = { s with st := s.getV x, pc := s.pc + 2 } ∧
      (t.tone = true ↔ 0 < (s.getV x).toNat) ∧ SameMemory s t

/-- R153: `LD Vx, K` enters the key wait for `x` and advances; the keypad is not looked at (decision D25, log entry
19). -/
def Obligations.AwaitKeypressSetsWait : Prop :=
  ∀ (x : Nibble) (s : State), ∃ t : State, exec (.ldVxK x) s = .next t ∧
    t = { s with wait := true, wreg := x, pc := s.pc + 2 } ∧ SameMemory s t

/-! ### Index register and memory instructions (45_index_memory.md) -/

/-- R160, R163: set `I` to an address, or to the glyph address `Vx * 5` of the whole byte (decision D23, log entry
20). -/
def Obligations.SetIndex : Prop :=
  (∀ (nnn : Addr12) (s : State), ∃ t : State, exec (.ldINnn nnn) s = .next t ∧
    t = { s with i := t.i, pc := s.pc + 2 } ∧ t.i.toNat = nnn.toNat ∧ SameMemory s t) ∧
  ∀ (x : Nibble) (s : State), ∃ t : State, exec (.ldFVx x) s = .next t ∧
    t = { s with i := t.i, pc := s.pc + 2 } ∧ t.i.toNat = (s.getV x).toNat * 5 ∧ SameMemory s t

/-- R162: `ADD I, Vx` holds the exact sum up to 0xFFFF; VF is not touched. -/
def Obligations.AddToIndex : Prop :=
  ∀ (x : Nibble) (s : State), s.i.toNat + (s.getV x).toNat ≤ 0xFFFF →
    ∃ t : State, exec (.addIVx x) s = .next t ∧ t = { s with i := t.i, pc := s.pc + 2 } ∧
      t.i.toNat = s.i.toNat + (s.getV x).toNat ∧ SameMemory s t

/-- R162 (decision D12, log entry 10): a sum above 0xFFFF faults; `I` keeps its value. -/
def Obligations.IndexOverflowFaults : Prop :=
  ∀ (x : Nibble) (s : State), s.i.toNat + (s.getV x).toNat > 0xFFFF →
    ∃ t : State, exec (.addIVx x) s = .next t ∧ Faulted .indexOverflow s.i.toNat s t

/-- R164: the BCD store writes hundreds, tens, units at `I`, `I + 1`, `I + 2`, and every other byte keeps its value. -/
def Obligations.BcdStoresDigits : Prop :=
  ∀ (x : Nibble) (s : State), MemoryCanonical s → s.i.toNat + 2 ≤ 4095 →
    ∃ t : State, exec (.ldBVx x) s = .next t ∧ t = { s with mem := t.mem, pc := s.pc + 2 } ∧
      (t.readMem s.i.toNat).toNat = (s.getV x).toNat / 100 ∧
      (t.readMem (s.i.toNat + 1)).toNat = (s.getV x).toNat / 10 % 10 ∧
      (t.readMem (s.i.toNat + 2)).toNat = (s.getV x).toNat % 10 ∧
      ∀ a : Nat, a < s.i.toNat ∨ s.i.toNat + 2 < a → t.readMem a = s.readMem a

/-- R165: the register dump writes `V[0]..V[x]` to `I .. I + x`, and every other byte keeps its value. -/
def Obligations.RegisterDumpStores : Prop :=
  ∀ (x : Nibble) (s : State), MemoryCanonical s → s.i.toNat + x.toNat ≤ 4095 →
    ∃ t : State, exec (.ldMemIVx x) s = .next t ∧ t = { s with mem := t.mem, pc := s.pc + 2 } ∧
      (∀ k : Nibble, k.toNat ≤ x.toNat → t.readMem (s.i.toNat + k.toNat) = s.getV k) ∧
      ∀ a : Nat, a < s.i.toNat ∨ s.i.toNat + x.toNat < a → t.readMem a = s.readMem a

/-- R166: the register load reads `V[0]..V[x]` from `I .. I + x`; the other registers and memory keep their values. -/
def Obligations.RegisterLoadReads : Prop :=
  ∀ (x : Nibble) (s : State), s.i.toNat + x.toNat ≤ 4095 →
    ∃ t : State, exec (.ldVxMemI x) s = .next t ∧ t = { s with v := t.v, pc := s.pc + 2 } ∧
      (∀ k : Nibble, k.toNat ≤ x.toNat → t.getV k = s.readMem (s.i.toNat + k.toNat)) ∧
      (∀ k : Nibble, x.toNat < k.toNat → t.getV k = s.getV k) ∧ SameMemory s t

/-- R164 to R166 (decision D8, log entry 11): a range that reaches above 4095 faults, with no byte and no register
written. -/
def Obligations.DataBeyondMemoryFaults : Prop :=
  ∀ (x : Nibble) (s : State),
    (s.i.toNat + 2 > 4095 → ∃ t : State, exec (.ldBVx x) s = .next t ∧
      Faulted .memOutOfRange (max s.i.toNat 4096) s t) ∧
    (s.i.toNat + x.toNat > 4095 → ∃ t : State, exec (.ldMemIVx x) s = .next t ∧
      Faulted .memOutOfRange (max s.i.toNat 4096) s t) ∧
    (s.i.toNat + x.toNat > 4095 → ∃ t : State, exec (.ldVxMemI x) s = .next t ∧
      Faulted .memOutOfRange (max s.i.toNat 4096) s t)

/-- R165, R166 (95_test_vectors.md E11): a dump followed, with any registers, by a load at the same `I` and `x`
restores `V[0]..V[x]` and leaves the other registers untouched. -/
def Obligations.DumpThenLoadRestores : Prop :=
  ∀ (x : Nibble) (s : State), MemoryCanonical s → s.i.toNat + x.toNat ≤ 4095 →
    ∃ t : State, exec (.ldMemIVx x) s = .next t ∧
      ∀ u : State, u.mem = t.mem → u.i = s.i →
        ∃ w : State, exec (.ldVxMemI x) u = .next w ∧
          (∀ k : Nibble, k.toNat ≤ x.toNat → w.getV k = s.getV k) ∧
          ∀ k : Nibble, x.toNat < k.toNat → w.getV k = u.getV k

/-! ### Reset and loading (70_reset_and_hazards.md) -/

/-- 10_state.md R30, R191: the state right after INIT, for every font the open parameter allows (00_scope.md R6, log
entry 9); `State.reset` is that state at the default font. -/
def Obligations.ResetValues : Prop :=
  State.resetWith Config.defaultRows = State.reset ∧
  ∀ rows : Config.GlyphRows, ∃ s : State, State.resetWith rows = s ∧
    (∀ r : Nibble, s.getV r = 0) ∧ s.i = 0 ∧ s.pc = 0x200 ∧ s.sp.val = 0 ∧ (∀ k : Fin 16, s.stack[k.val] = 0) ∧
    s.dt = 0 ∧ s.st = 0 ∧ (∀ (c : Fin 64) (r : Fin 32), s.disp.pixel c r = false) ∧ s.wait = false ∧ s.wreg = 0 ∧
    s.fault = none ∧ s.mode = .running ∧ s.displayChanged = false ∧ s.tone = false ∧ s.font = rows ∧
    (∀ (a : Nat) (h : a < (Config.fontTable rows).length), s.readMem a = (Config.fontTable rows)[a]) ∧
    (Config.fontTable rows).length = 80 ∧ ∀ a : Nat, 80 ≤ a → s.readMem a = 0

/-- 20_memory.md R47: the bytes of the font table that the source gives, glyph 0 and glyph F, as INIT leaves them
whatever the open parameter; the rows of the other glyphs in order, four columns in bits 7..4; bits 3..0 are 0 in every
byte. -/
def Obligations.SourceGlyphsAfterReset : Prop :=
  ∀ rows : Config.GlyphRows,
    (List.range 5).map (State.resetWith rows).readMem = [0xF0, 0x90, 0x90, 0x90, 0xF0] ∧
    (List.range 5).map (fun k => (State.resetWith rows).readMem (75 + k)) = [0xF0, 0x80, 0xF0, 0x80, 0x80] ∧
    (∀ k : Fin 70, ((State.resetWith rows).readMem (5 + k.val)).toNat = rows[k.val].toNat * 16) ∧
    ∀ a : Nat, a < 80 → ((State.resetWith rows).readMem a).toNat % 16 = 0

/-- R190 (decision D15, log entry 12): INIT leaves the reset state from any state, FAULTED ones too, whatever a LOAD
had stored; the font table is the machine's own and stays. -/
def Obligations.InitResetsEveryState : Prop :=
  ∀ (s : State) (bytes : List Byte), SameCore (State.resetWith s.font) s.init ∧ s.init.displayChanged = false ∧
    (s.load bytes).init = s.init

/-- R192: LOAD copies the bytes to 0x200 upward, drops those beyond 4095, and changes nothing else. -/
def Obligations.LoadCopiesAndTruncates : Prop :=
  ∀ (bytes : List Byte) (s : State), MemoryCanonical s → s.load bytes = { s with mem := (s.load bytes).mem } ∧
    (∀ (k : Nat) (h : k < bytes.length), 0x200 + k ≤ 4095 → (s.load bytes).readMem (0x200 + k) = bytes[k]) ∧
    ∀ a : Nat, a < 0x200 ∨ 0x200 + bytes.length ≤ a ∨ 4095 < a → (s.load bytes).readMem a = s.readMem a

/-! ### Rules of the whole machine -/

/-- 60_exceptions.md R171, R172, 40_step_cycle.md R85, R86: an instruction that meets no condition of R171 makes the
program-counter transition of its kind and leaves the latch as it was; one that meets a condition latches the cause and
info of that row and changes nothing else (decisions D7 to D14, log entries 4, 11 and 12). What a completing instruction
writes is said by its own statement. -/
def Obligations.FaultsArePrecise : Prop :=
  ∀ (i : Instr) (s : State), ∃ t : State, exec i s = .next t ∧
    ((t.fault = s.fault ∧ PcTransition i s t.pc ∧ ∀ (cause : FaultCause) (info : Nat), ¬ Raises i s cause info) ∨
      ∃ (cause : FaultCause) (info : Nat), Raises i s cause info ∧ Faulted cause info s t)

/-- 10_state.md R12, R26 and 60_exceptions.md R171: which instructions can change each register, memory, display,
stack, timers, `I`, the key wait, the fault latch and `display_changed`; none changes the ports, the font table or the
model's own fields. Every instruction may change `PC`: FaultsArePrecise says how. That VF is written by no other
instruction is decision D6 (log entry 6). -/
def Obligations.WritersOfEachStore : Prop :=
  ∀ (i : Instr) (s t : State), exec i s = .next t →
    (∀ r : Nibble, t.getV r ≠ s.getV r → WritesReg i r) ∧
    (t.mem ≠ s.mem → ∃ x : Nibble, i = .ldBVx x ∨ i = .ldMemIVx x) ∧
    (t.disp ≠ s.disp → i = .cls ∨ ∃ x y n : Nibble, i = .drwVxVyN x y n) ∧
    (t.stack ≠ s.stack → ∃ nnn : Addr12, i = .callNnn nnn) ∧
    (t.sp ≠ s.sp → i = .ret ∨ ∃ nnn : Addr12, i = .callNnn nnn) ∧
    (t.dt ≠ s.dt → ∃ x : Nibble, i = .ldDtVx x) ∧ (t.st ≠ s.st → ∃ x : Nibble, i = .ldStVx x) ∧
    (t.i ≠ s.i → (∃ nnn : Addr12, i = .ldINnn nnn) ∨ ∃ x : Nibble, i = .addIVx x ∨ i = .ldFVx x) ∧
    (t.wait ≠ s.wait ∨ t.wreg ≠ s.wreg → ∃ x : Nibble, i = .ldVxK x) ∧
    (t.fault ≠ s.fault → ∃ (cause : FaultCause) (info : Nat), Raises i s cause info) ∧
    (t.displayChanged ≠ s.displayChanged → i = .cls ∨ (∃ x y n : Nibble, i = .drwVxVyN x y n) ∨
      ∃ (cause : FaultCause) (info : Nat), Raises i s cause info) ∧
    t.keypad = s.keypad ∧ t.rnd = s.rnd ∧ t.font = s.font ∧ t.inputs = s.inputs ∧ t.tick = s.tick

/-- 10_state.md R24, R26: the random byte reaches no instruction but `Cxkk`, and the keypad none but `Ex9E` and
`ExA1`: with another value on the port the outcome differs in the port only. -/
def Obligations.PortsReachOnlyTheirReaders : Prop :=
  ∀ (i : Instr) (s t : State), exec i s = .next t →
    (∀ r : Byte, (∀ (x : Nibble) (kk : Byte), i ≠ .rndVxKk x kk) → exec i { s with rnd := r } = .next { t with rnd := r }) ∧
    ∀ k : BitVec 16, (∀ x : Nibble, i ≠ .skpVx x ∧ i ≠ .sknpVx x) →
      exec i { s with keypad := k } = .next { t with keypad := k }

/-- 70_reset_and_hazards.md R204 (decision D27, log entry 20): from a finished state every STEP leaves the core's state
unchanged, whatever its inputs. -/
def Obligations.FinishedIsAFixedPoint : Prop :=
  ∀ s : State, Finished s → ∃ t : State, step s = .next t ∧ SameCore s t ∧ Finished t

/-- Every STEP keeps memory in its canonical form (the model's form of 20_memory.md R40, log entry 15). -/
def Obligations.StepKeepsMemoryCanonical : Prop :=
  ∀ s t : State, MemoryCanonical s → step s = .next t → MemoryCanonical t

/-- Memory is canonical at reset, for every font, and after any LOAD there. -/
def Obligations.ResetMemoryCanonical : Prop :=
  ∀ rows : Config.GlyphRows, MemoryCanonical (State.resetWith rows) ∧
    ∀ bytes : List Byte, MemoryCanonical ((State.resetWith rows).load bytes)

/-- 60_exceptions.md R171, R172, R177: in every state a STEP leaves, a latched record still names the faulting `PC` and
the condition that raised it (decisions D7, D14, log entry 12). -/
def Obligations.StepKeepsFaultConsistent : Prop :=
  ∀ s t : State, FaultConsistent s → step s = .next t → FaultConsistent t

/-- 10_state.md R15: no STEP takes `PC` above 0x10FE or stores a return address above 4096, so no sum on `PC` wraps. -/
def Obligations.StepKeepsAddressesBounded : Prop :=
  ∀ s t : State, AddressesBounded s → step s = .next t → AddressesBounded t

/-- The two other invariants hold at reset, for every font. -/
def Obligations.ResetMeetsInvariants : Prop :=
  ∀ rows : Config.GlyphRows, FaultConsistent (State.resetWith rows) ∧ AddressesBounded (State.resetWith rows)
end

