-- ==== Sys2Proof/Laws/State.lean ====
section
/-! SUPPORT. What each update of the state does to each field and to the reads of a register and of a byte of memory:
true by unfolding, tagged for simp, so that no later proof unfolds a record update. -/

namespace Sys2Proof.Machine

variable (s : State)

/-! ### `setV` -/

@[simp] theorem State.setV_v (r : Nibble) (b : Byte) : (s.setV r b).v = s.v.set r.toNat b r.isLt := rfl
@[simp] theorem State.setV_i (r : Nibble) (b : Byte) : (s.setV r b).i = s.i := rfl
@[simp] theorem State.setV_pc (r : Nibble) (b : Byte) : (s.setV r b).pc = s.pc := rfl
@[simp] theorem State.setV_sp (r : Nibble) (b : Byte) : (s.setV r b).sp = s.sp := rfl
@[simp] theorem State.setV_stack (r : Nibble) (b : Byte) : (s.setV r b).stack = s.stack := rfl
@[simp] theorem State.setV_dt (r : Nibble) (b : Byte) : (s.setV r b).dt = s.dt := rfl
@[simp] theorem State.setV_st (r : Nibble) (b : Byte) : (s.setV r b).st = s.st := rfl
@[simp] theorem State.setV_disp (r : Nibble) (b : Byte) : (s.setV r b).disp = s.disp := rfl
@[simp] theorem State.setV_wait (r : Nibble) (b : Byte) : (s.setV r b).wait = s.wait := rfl
@[simp] theorem State.setV_wreg (r : Nibble) (b : Byte) : (s.setV r b).wreg = s.wreg := rfl
@[simp] theorem State.setV_fault (r : Nibble) (b : Byte) : (s.setV r b).fault = s.fault := rfl
@[simp] theorem State.setV_mem (r : Nibble) (b : Byte) : (s.setV r b).mem = s.mem := rfl
@[simp] theorem State.setV_keypad (r : Nibble) (b : Byte) : (s.setV r b).keypad = s.keypad := rfl
@[simp] theorem State.setV_rnd (r : Nibble) (b : Byte) : (s.setV r b).rnd = s.rnd := rfl
@[simp] theorem State.setV_displayChanged (r : Nibble) (b : Byte) : (s.setV r b).displayChanged = s.displayChanged := rfl
@[simp] theorem State.setV_inputs (r : Nibble) (b : Byte) : (s.setV r b).inputs = s.inputs := rfl
@[simp] theorem State.setV_tick (r : Nibble) (b : Byte) : (s.setV r b).tick = s.tick := rfl
@[simp] theorem State.setV_font (r : Nibble) (b : Byte) : (s.setV r b).font = s.font := rfl
@[simp] theorem State.readMem_setV (q : Nat) (r : Nibble) (b : Byte) : (s.setV r b).readMem q = s.readMem q := rfl

/-! ### `setI` -/

@[simp] theorem State.setI_v (a : Word) : (s.setI a).v = s.v := rfl
@[simp] theorem State.setI_i (a : Word) : (s.setI a).i = a := rfl
@[simp] theorem State.setI_pc (a : Word) : (s.setI a).pc = s.pc := rfl
@[simp] theorem State.setI_sp (a : Word) : (s.setI a).sp = s.sp := rfl
@[simp] theorem State.setI_stack (a : Word) : (s.setI a).stack = s.stack := rfl
@[simp] theorem State.setI_dt (a : Word) : (s.setI a).dt = s.dt := rfl
@[simp] theorem State.setI_st (a : Word) : (s.setI a).st = s.st := rfl
@[simp] theorem State.setI_disp (a : Word) : (s.setI a).disp = s.disp := rfl
@[simp] theorem State.setI_wait (a : Word) : (s.setI a).wait = s.wait := rfl
@[simp] theorem State.setI_wreg (a : Word) : (s.setI a).wreg = s.wreg := rfl
@[simp] theorem State.setI_fault (a : Word) : (s.setI a).fault = s.fault := rfl
@[simp] theorem State.setI_mem (a : Word) : (s.setI a).mem = s.mem := rfl
@[simp] theorem State.setI_keypad (a : Word) : (s.setI a).keypad = s.keypad := rfl
@[simp] theorem State.setI_rnd (a : Word) : (s.setI a).rnd = s.rnd := rfl
@[simp] theorem State.setI_displayChanged (a : Word) : (s.setI a).displayChanged = s.displayChanged := rfl
@[simp] theorem State.setI_inputs (a : Word) : (s.setI a).inputs = s.inputs := rfl
@[simp] theorem State.setI_tick (a : Word) : (s.setI a).tick = s.tick := rfl
@[simp] theorem State.setI_font (a : Word) : (s.setI a).font = s.font := rfl
@[simp] theorem State.getV_setI (q : Nibble) (a : Word) : (s.setI a).getV q = s.getV q := rfl
@[simp] theorem State.readMem_setI (q : Nat) (a : Word) : (s.setI a).readMem q = s.readMem q := rfl

/-! ### `setDt` -/

@[simp] theorem State.setDt_v (b : Byte) : (s.setDt b).v = s.v := rfl
@[simp] theorem State.setDt_i (b : Byte) : (s.setDt b).i = s.i := rfl
@[simp] theorem State.setDt_pc (b : Byte) : (s.setDt b).pc = s.pc := rfl
@[simp] theorem State.setDt_sp (b : Byte) : (s.setDt b).sp = s.sp := rfl
@[simp] theorem State.setDt_stack (b : Byte) : (s.setDt b).stack = s.stack := rfl
@[simp] theorem State.setDt_dt (b : Byte) : (s.setDt b).dt = b := rfl
@[simp] theorem State.setDt_st (b : Byte) : (s.setDt b).st = s.st := rfl
@[simp] theorem State.setDt_disp (b : Byte) : (s.setDt b).disp = s.disp := rfl
@[simp] theorem State.setDt_wait (b : Byte) : (s.setDt b).wait = s.wait := rfl
@[simp] theorem State.setDt_wreg (b : Byte) : (s.setDt b).wreg = s.wreg := rfl
@[simp] theorem State.setDt_fault (b : Byte) : (s.setDt b).fault = s.fault := rfl
@[simp] theorem State.setDt_mem (b : Byte) : (s.setDt b).mem = s.mem := rfl
@[simp] theorem State.setDt_keypad (b : Byte) : (s.setDt b).keypad = s.keypad := rfl
@[simp] theorem State.setDt_rnd (b : Byte) : (s.setDt b).rnd = s.rnd := rfl
@[simp] theorem State.setDt_displayChanged (b : Byte) : (s.setDt b).displayChanged = s.displayChanged := rfl
@[simp] theorem State.setDt_inputs (b : Byte) : (s.setDt b).inputs = s.inputs := rfl
@[simp] theorem State.setDt_tick (b : Byte) : (s.setDt b).tick = s.tick := rfl
@[simp] theorem State.setDt_font (b : Byte) : (s.setDt b).font = s.font := rfl
@[simp] theorem State.getV_setDt (q : Nibble) (b : Byte) : (s.setDt b).getV q = s.getV q := rfl
@[simp] theorem State.readMem_setDt (q : Nat) (b : Byte) : (s.setDt b).readMem q = s.readMem q := rfl

/-! ### `setSt` -/

@[simp] theorem State.setSt_v (b : Byte) : (s.setSt b).v = s.v := rfl
@[simp] theorem State.setSt_i (b : Byte) : (s.setSt b).i = s.i := rfl
@[simp] theorem State.setSt_pc (b : Byte) : (s.setSt b).pc = s.pc := rfl
@[simp] theorem State.setSt_sp (b : Byte) : (s.setSt b).sp = s.sp := rfl
@[simp] theorem State.setSt_stack (b : Byte) : (s.setSt b).stack = s.stack := rfl
@[simp] theorem State.setSt_dt (b : Byte) : (s.setSt b).dt = s.dt := rfl
@[simp] theorem State.setSt_st (b : Byte) : (s.setSt b).st = b := rfl
@[simp] theorem State.setSt_disp (b : Byte) : (s.setSt b).disp = s.disp := rfl
@[simp] theorem State.setSt_wait (b : Byte) : (s.setSt b).wait = s.wait := rfl
@[simp] theorem State.setSt_wreg (b : Byte) : (s.setSt b).wreg = s.wreg := rfl
@[simp] theorem State.setSt_fault (b : Byte) : (s.setSt b).fault = s.fault := rfl
@[simp] theorem State.setSt_mem (b : Byte) : (s.setSt b).mem = s.mem := rfl
@[simp] theorem State.setSt_keypad (b : Byte) : (s.setSt b).keypad = s.keypad := rfl
@[simp] theorem State.setSt_rnd (b : Byte) : (s.setSt b).rnd = s.rnd := rfl
@[simp] theorem State.setSt_displayChanged (b : Byte) : (s.setSt b).displayChanged = s.displayChanged := rfl
@[simp] theorem State.setSt_inputs (b : Byte) : (s.setSt b).inputs = s.inputs := rfl
@[simp] theorem State.setSt_tick (b : Byte) : (s.setSt b).tick = s.tick := rfl
@[simp] theorem State.setSt_font (b : Byte) : (s.setSt b).font = s.font := rfl
@[simp] theorem State.getV_setSt (q : Nibble) (b : Byte) : (s.setSt b).getV q = s.getV q := rfl
@[simp] theorem State.readMem_setSt (q : Nat) (b : Byte) : (s.setSt b).readMem q = s.readMem q := rfl

/-! ### `startWait` -/

@[simp] theorem State.startWait_v (x : Nibble) : (s.startWait x).v = s.v := rfl
@[simp] theorem State.startWait_i (x : Nibble) : (s.startWait x).i = s.i := rfl
@[simp] theorem State.startWait_pc (x : Nibble) : (s.startWait x).pc = s.pc := rfl
@[simp] theorem State.startWait_sp (x : Nibble) : (s.startWait x).sp = s.sp := rfl
@[simp] theorem State.startWait_stack (x : Nibble) : (s.startWait x).stack = s.stack := rfl
@[simp] theorem State.startWait_dt (x : Nibble) : (s.startWait x).dt = s.dt := rfl
@[simp] theorem State.startWait_st (x : Nibble) : (s.startWait x).st = s.st := rfl
@[simp] theorem State.startWait_disp (x : Nibble) : (s.startWait x).disp = s.disp := rfl
@[simp] theorem State.startWait_wait (x : Nibble) : (s.startWait x).wait = true := rfl
@[simp] theorem State.startWait_wreg (x : Nibble) : (s.startWait x).wreg = x := rfl
@[simp] theorem State.startWait_fault (x : Nibble) : (s.startWait x).fault = s.fault := rfl
@[simp] theorem State.startWait_mem (x : Nibble) : (s.startWait x).mem = s.mem := rfl
@[simp] theorem State.startWait_keypad (x : Nibble) : (s.startWait x).keypad = s.keypad := rfl
@[simp] theorem State.startWait_rnd (x : Nibble) : (s.startWait x).rnd = s.rnd := rfl
@[simp] theorem State.startWait_displayChanged (x : Nibble) : (s.startWait x).displayChanged = s.displayChanged := rfl
@[simp] theorem State.startWait_inputs (x : Nibble) : (s.startWait x).inputs = s.inputs := rfl
@[simp] theorem State.startWait_tick (x : Nibble) : (s.startWait x).tick = s.tick := rfl
@[simp] theorem State.startWait_font (x : Nibble) : (s.startWait x).font = s.font := rfl
@[simp] theorem State.getV_startWait (q : Nibble) (x : Nibble) : (s.startWait x).getV q = s.getV q := rfl
@[simp] theorem State.readMem_startWait (q : Nat) (x : Nibble) : (s.startWait x).readMem q = s.readMem q := rfl

/-! ### `jump` -/

@[simp] theorem State.jump_v (a : Word) : (s.jump a).v = s.v := rfl
@[simp] theorem State.jump_i (a : Word) : (s.jump a).i = s.i := rfl
@[simp] theorem State.jump_pc (a : Word) : (s.jump a).pc = a := rfl
@[simp] theorem State.jump_sp (a : Word) : (s.jump a).sp = s.sp := rfl
@[simp] theorem State.jump_stack (a : Word) : (s.jump a).stack = s.stack := rfl
@[simp] theorem State.jump_dt (a : Word) : (s.jump a).dt = s.dt := rfl
@[simp] theorem State.jump_st (a : Word) : (s.jump a).st = s.st := rfl
@[simp] theorem State.jump_disp (a : Word) : (s.jump a).disp = s.disp := rfl
@[simp] theorem State.jump_wait (a : Word) : (s.jump a).wait = s.wait := rfl
@[simp] theorem State.jump_wreg (a : Word) : (s.jump a).wreg = s.wreg := rfl
@[simp] theorem State.jump_fault (a : Word) : (s.jump a).fault = s.fault := rfl
@[simp] theorem State.jump_mem (a : Word) : (s.jump a).mem = s.mem := rfl
@[simp] theorem State.jump_keypad (a : Word) : (s.jump a).keypad = s.keypad := rfl
@[simp] theorem State.jump_rnd (a : Word) : (s.jump a).rnd = s.rnd := rfl
@[simp] theorem State.jump_displayChanged (a : Word) : (s.jump a).displayChanged = s.displayChanged := rfl
@[simp] theorem State.jump_inputs (a : Word) : (s.jump a).inputs = s.inputs := rfl
@[simp] theorem State.jump_tick (a : Word) : (s.jump a).tick = s.tick := rfl
@[simp] theorem State.jump_font (a : Word) : (s.jump a).font = s.font := rfl
@[simp] theorem State.getV_jump (q : Nibble) (a : Word) : (s.jump a).getV q = s.getV q := rfl
@[simp] theorem State.readMem_jump (q : Nat) (a : Word) : (s.jump a).readMem q = s.readMem q := rfl

/-! ### `advance` -/

@[simp] theorem State.advance_v : (s.advance).v = s.v := rfl
@[simp] theorem State.advance_i : (s.advance).i = s.i := rfl
@[simp] theorem State.advance_pc : (s.advance).pc = s.pc + 2 := rfl
@[simp] theorem State.advance_sp : (s.advance).sp = s.sp := rfl
@[simp] theorem State.advance_stack : (s.advance).stack = s.stack := rfl
@[simp] theorem State.advance_dt : (s.advance).dt = s.dt := rfl
@[simp] theorem State.advance_st : (s.advance).st = s.st := rfl
@[simp] theorem State.advance_disp : (s.advance).disp = s.disp := rfl
@[simp] theorem State.advance_wait : (s.advance).wait = s.wait := rfl
@[simp] theorem State.advance_wreg : (s.advance).wreg = s.wreg := rfl
@[simp] theorem State.advance_fault : (s.advance).fault = s.fault := rfl
@[simp] theorem State.advance_mem : (s.advance).mem = s.mem := rfl
@[simp] theorem State.advance_keypad : (s.advance).keypad = s.keypad := rfl
@[simp] theorem State.advance_rnd : (s.advance).rnd = s.rnd := rfl
@[simp] theorem State.advance_displayChanged : (s.advance).displayChanged = s.displayChanged := rfl
@[simp] theorem State.advance_inputs : (s.advance).inputs = s.inputs := rfl
@[simp] theorem State.advance_tick : (s.advance).tick = s.tick := rfl
@[simp] theorem State.advance_font : (s.advance).font = s.font := rfl
@[simp] theorem State.getV_advance (q : Nibble) : (s.advance).getV q = s.getV q := rfl
@[simp] theorem State.readMem_advance (q : Nat) : (s.advance).readMem q = s.readMem q := rfl

/-! ### `skip` -/

@[simp] theorem State.skip_v : (s.skip).v = s.v := rfl
@[simp] theorem State.skip_i : (s.skip).i = s.i := rfl
@[simp] theorem State.skip_pc : (s.skip).pc = s.pc + 4 := rfl
@[simp] theorem State.skip_sp : (s.skip).sp = s.sp := rfl
@[simp] theorem State.skip_stack : (s.skip).stack = s.stack := rfl
@[simp] theorem State.skip_dt : (s.skip).dt = s.dt := rfl
@[simp] theorem State.skip_st : (s.skip).st = s.st := rfl
@[simp] theorem State.skip_disp : (s.skip).disp = s.disp := rfl
@[simp] theorem State.skip_wait : (s.skip).wait = s.wait := rfl
@[simp] theorem State.skip_wreg : (s.skip).wreg = s.wreg := rfl
@[simp] theorem State.skip_fault : (s.skip).fault = s.fault := rfl
@[simp] theorem State.skip_mem : (s.skip).mem = s.mem := rfl
@[simp] theorem State.skip_keypad : (s.skip).keypad = s.keypad := rfl
@[simp] theorem State.skip_rnd : (s.skip).rnd = s.rnd := rfl
@[simp] theorem State.skip_displayChanged : (s.skip).displayChanged = s.displayChanged := rfl
@[simp] theorem State.skip_inputs : (s.skip).inputs = s.inputs := rfl
@[simp] theorem State.skip_tick : (s.skip).tick = s.tick := rfl
@[simp] theorem State.skip_font : (s.skip).font = s.font := rfl
@[simp] theorem State.getV_skip (q : Nibble) : (s.skip).getV q = s.getV q := rfl
@[simp] theorem State.readMem_skip (q : Nat) : (s.skip).readMem q = s.readMem q := rfl

/-! ### `raise` -/

@[simp] theorem State.raise_v (c : FaultCause) (a : Word) : (s.raise c a).v = s.v := rfl
@[simp] theorem State.raise_i (c : FaultCause) (a : Word) : (s.raise c a).i = s.i := rfl
@[simp] theorem State.raise_pc (c : FaultCause) (a : Word) : (s.raise c a).pc = s.pc := rfl
@[simp] theorem State.raise_sp (c : FaultCause) (a : Word) : (s.raise c a).sp = s.sp := rfl
@[simp] theorem State.raise_stack (c : FaultCause) (a : Word) : (s.raise c a).stack = s.stack := rfl
@[simp] theorem State.raise_dt (c : FaultCause) (a : Word) : (s.raise c a).dt = s.dt := rfl
@[simp] theorem State.raise_st (c : FaultCause) (a : Word) : (s.raise c a).st = s.st := rfl
@[simp] theorem State.raise_disp (c : FaultCause) (a : Word) : (s.raise c a).disp = s.disp := rfl
@[simp] theorem State.raise_wait (c : FaultCause) (a : Word) : (s.raise c a).wait = s.wait := rfl
@[simp] theorem State.raise_wreg (c : FaultCause) (a : Word) : (s.raise c a).wreg = s.wreg := rfl
@[simp] theorem State.raise_fault (c : FaultCause) (a : Word) : (s.raise c a).fault = some ⟨c, s.pc, a⟩ := rfl
@[simp] theorem State.raise_mem (c : FaultCause) (a : Word) : (s.raise c a).mem = s.mem := rfl
@[simp] theorem State.raise_keypad (c : FaultCause) (a : Word) : (s.raise c a).keypad = s.keypad := rfl
@[simp] theorem State.raise_rnd (c : FaultCause) (a : Word) : (s.raise c a).rnd = s.rnd := rfl
@[simp] theorem State.raise_displayChanged (c : FaultCause) (a : Word) : (s.raise c a).displayChanged = false := rfl
@[simp] theorem State.raise_inputs (c : FaultCause) (a : Word) : (s.raise c a).inputs = s.inputs := rfl
@[simp] theorem State.raise_tick (c : FaultCause) (a : Word) : (s.raise c a).tick = s.tick := rfl
@[simp] theorem State.raise_font (c : FaultCause) (a : Word) : (s.raise c a).font = s.font := rfl
@[simp] theorem State.getV_raise (q : Nibble) (c : FaultCause) (a : Word) : (s.raise c a).getV q = s.getV q := rfl
@[simp] theorem State.readMem_raise (q : Nat) (c : FaultCause) (a : Word) : (s.raise c a).readMem q = s.readMem q := rfl

/-! ### `setDisp` -/

@[simp] theorem State.setDisp_v (d : Display) : (s.setDisp d).v = s.v := rfl
@[simp] theorem State.setDisp_i (d : Display) : (s.setDisp d).i = s.i := rfl
@[simp] theorem State.setDisp_pc (d : Display) : (s.setDisp d).pc = s.pc := rfl
@[simp] theorem State.setDisp_sp (d : Display) : (s.setDisp d).sp = s.sp := rfl
@[simp] theorem State.setDisp_stack (d : Display) : (s.setDisp d).stack = s.stack := rfl
@[simp] theorem State.setDisp_dt (d : Display) : (s.setDisp d).dt = s.dt := rfl
@[simp] theorem State.setDisp_st (d : Display) : (s.setDisp d).st = s.st := rfl
@[simp] theorem State.setDisp_disp (d : Display) : (s.setDisp d).disp = d := rfl
@[simp] theorem State.setDisp_wait (d : Display) : (s.setDisp d).wait = s.wait := rfl
@[simp] theorem State.setDisp_wreg (d : Display) : (s.setDisp d).wreg = s.wreg := rfl
@[simp] theorem State.setDisp_fault (d : Display) : (s.setDisp d).fault = s.fault := rfl
@[simp] theorem State.setDisp_mem (d : Display) : (s.setDisp d).mem = s.mem := rfl
@[simp] theorem State.setDisp_keypad (d : Display) : (s.setDisp d).keypad = s.keypad := rfl
@[simp] theorem State.setDisp_rnd (d : Display) : (s.setDisp d).rnd = s.rnd := rfl
@[simp] theorem State.setDisp_displayChanged (d : Display) : (s.setDisp d).displayChanged = true := rfl
@[simp] theorem State.setDisp_inputs (d : Display) : (s.setDisp d).inputs = s.inputs := rfl
@[simp] theorem State.setDisp_tick (d : Display) : (s.setDisp d).tick = s.tick := rfl
@[simp] theorem State.setDisp_font (d : Display) : (s.setDisp d).font = s.font := rfl
@[simp] theorem State.getV_setDisp (q : Nibble) (d : Display) : (s.setDisp d).getV q = s.getV q := rfl
@[simp] theorem State.readMem_setDisp (q : Nat) (d : Display) : (s.setDisp d).readMem q = s.readMem q := rfl

/-! ### `tickTimers` -/

@[simp] theorem State.tickTimers_v : (s.tickTimers).v = s.v := rfl
@[simp] theorem State.tickTimers_i : (s.tickTimers).i = s.i := rfl
@[simp] theorem State.tickTimers_pc : (s.tickTimers).pc = s.pc := rfl
@[simp] theorem State.tickTimers_sp : (s.tickTimers).sp = s.sp := rfl
@[simp] theorem State.tickTimers_stack : (s.tickTimers).stack = s.stack := rfl
@[simp] theorem State.tickTimers_dt : (s.tickTimers).dt = countDown s.dt := rfl
@[simp] theorem State.tickTimers_st : (s.tickTimers).st = countDown s.st := rfl
@[simp] theorem State.tickTimers_disp : (s.tickTimers).disp = s.disp := rfl
@[simp] theorem State.tickTimers_wait : (s.tickTimers).wait = s.wait := rfl
@[simp] theorem State.tickTimers_wreg : (s.tickTimers).wreg = s.wreg := rfl
@[simp] theorem State.tickTimers_fault : (s.tickTimers).fault = s.fault := rfl
@[simp] theorem State.tickTimers_mem : (s.tickTimers).mem = s.mem := rfl
@[simp] theorem State.tickTimers_keypad : (s.tickTimers).keypad = s.keypad := rfl
@[simp] theorem State.tickTimers_rnd : (s.tickTimers).rnd = s.rnd := rfl
@[simp] theorem State.tickTimers_displayChanged : (s.tickTimers).displayChanged = s.displayChanged := rfl
@[simp] theorem State.tickTimers_inputs : (s.tickTimers).inputs = s.inputs := rfl
@[simp] theorem State.tickTimers_tick : (s.tickTimers).tick = s.tick := rfl
@[simp] theorem State.tickTimers_font : (s.tickTimers).font = s.font := rfl
@[simp] theorem State.getV_tickTimers (q : Nibble) : (s.tickTimers).getV q = s.getV q := rfl
@[simp] theorem State.readMem_tickTimers (q : Nat) : (s.tickTimers).readMem q = s.readMem q := rfl

/-! ### `setResultThenFlag` -/

@[simp] theorem State.setResultThenFlag_v (x : Nibble) (b f : Byte) : (s.setResultThenFlag x b f).v = (s.v.set x.toNat b x.isLt).set vf.toNat f vf.isLt := rfl
@[simp] theorem State.setResultThenFlag_i (x : Nibble) (b f : Byte) : (s.setResultThenFlag x b f).i = s.i := rfl
@[simp] theorem State.setResultThenFlag_pc (x : Nibble) (b f : Byte) : (s.setResultThenFlag x b f).pc = s.pc := rfl
@[simp] theorem State.setResultThenFlag_sp (x : Nibble) (b f : Byte) : (s.setResultThenFlag x b f).sp = s.sp := rfl
@[simp] theorem State.setResultThenFlag_stack (x : Nibble) (b f : Byte) : (s.setResultThenFlag x b f).stack = s.stack := rfl
@[simp] theorem State.setResultThenFlag_dt (x : Nibble) (b f : Byte) : (s.setResultThenFlag x b f).dt = s.dt := rfl
@[simp] theorem State.setResultThenFlag_st (x : Nibble) (b f : Byte) : (s.setResultThenFlag x b f).st = s.st := rfl
@[simp] theorem State.setResultThenFlag_disp (x : Nibble) (b f : Byte) : (s.setResultThenFlag x b f).disp = s.disp := rfl
@[simp] theorem State.setResultThenFlag_wait (x : Nibble) (b f : Byte) : (s.setResultThenFlag x b f).wait = s.wait := rfl
@[simp] theorem State.setResultThenFlag_wreg (x : Nibble) (b f : Byte) : (s.setResultThenFlag x b f).wreg = s.wreg := rfl
@[simp] theorem State.setResultThenFlag_fault (x : Nibble) (b f : Byte) : (s.setResultThenFlag x b f).fault = s.fault := rfl
@[simp] theorem State.setResultThenFlag_mem (x : Nibble) (b f : Byte) : (s.setResultThenFlag x b f).mem = s.mem := rfl
@[simp] theorem State.setResultThenFlag_keypad (x : Nibble) (b f : Byte) : (s.setResultThenFlag x b f).keypad = s.keypad := rfl
@[simp] theorem State.setResultThenFlag_rnd (x : Nibble) (b f : Byte) : (s.setResultThenFlag x b f).rnd = s.rnd := rfl
@[simp] theorem State.setResultThenFlag_displayChanged (x : Nibble) (b f : Byte) : (s.setResultThenFlag x b f).displayChanged = s.displayChanged := rfl
@[simp] theorem State.setResultThenFlag_inputs (x : Nibble) (b f : Byte) : (s.setResultThenFlag x b f).inputs = s.inputs := rfl
@[simp] theorem State.setResultThenFlag_tick (x : Nibble) (b f : Byte) : (s.setResultThenFlag x b f).tick = s.tick := rfl
@[simp] theorem State.setResultThenFlag_font (x : Nibble) (b f : Byte) : (s.setResultThenFlag x b f).font = s.font := rfl
@[simp] theorem State.readMem_setResultThenFlag (q : Nat) (x : Nibble) (b f : Byte) : (s.setResultThenFlag x b f).readMem q = s.readMem q := rfl

/-! ### `setFlagThenResult` -/

@[simp] theorem State.setFlagThenResult_v (x : Nibble) (f b : Byte) : (s.setFlagThenResult x f b).v = (s.v.set vf.toNat f vf.isLt).set x.toNat b x.isLt := rfl
@[simp] theorem State.setFlagThenResult_i (x : Nibble) (f b : Byte) : (s.setFlagThenResult x f b).i = s.i := rfl
@[simp] theorem State.setFlagThenResult_pc (x : Nibble) (f b : Byte) : (s.setFlagThenResult x f b).pc = s.pc := rfl
@[simp] theorem State.setFlagThenResult_sp (x : Nibble) (f b : Byte) : (s.setFlagThenResult x f b).sp = s.sp := rfl
@[simp] theorem State.setFlagThenResult_stack (x : Nibble) (f b : Byte) : (s.setFlagThenResult x f b).stack = s.stack := rfl
@[simp] theorem State.setFlagThenResult_dt (x : Nibble) (f b : Byte) : (s.setFlagThenResult x f b).dt = s.dt := rfl
@[simp] theorem State.setFlagThenResult_st (x : Nibble) (f b : Byte) : (s.setFlagThenResult x f b).st = s.st := rfl
@[simp] theorem State.setFlagThenResult_disp (x : Nibble) (f b : Byte) : (s.setFlagThenResult x f b).disp = s.disp := rfl
@[simp] theorem State.setFlagThenResult_wait (x : Nibble) (f b : Byte) : (s.setFlagThenResult x f b).wait = s.wait := rfl
@[simp] theorem State.setFlagThenResult_wreg (x : Nibble) (f b : Byte) : (s.setFlagThenResult x f b).wreg = s.wreg := rfl
@[simp] theorem State.setFlagThenResult_fault (x : Nibble) (f b : Byte) : (s.setFlagThenResult x f b).fault = s.fault := rfl
@[simp] theorem State.setFlagThenResult_mem (x : Nibble) (f b : Byte) : (s.setFlagThenResult x f b).mem = s.mem := rfl
@[simp] theorem State.setFlagThenResult_keypad (x : Nibble) (f b : Byte) : (s.setFlagThenResult x f b).keypad = s.keypad := rfl
@[simp] theorem State.setFlagThenResult_rnd (x : Nibble) (f b : Byte) : (s.setFlagThenResult x f b).rnd = s.rnd := rfl
@[simp] theorem State.setFlagThenResult_displayChanged (x : Nibble) (f b : Byte) : (s.setFlagThenResult x f b).displayChanged = s.displayChanged := rfl
@[simp] theorem State.setFlagThenResult_inputs (x : Nibble) (f b : Byte) : (s.setFlagThenResult x f b).inputs = s.inputs := rfl
@[simp] theorem State.setFlagThenResult_tick (x : Nibble) (f b : Byte) : (s.setFlagThenResult x f b).tick = s.tick := rfl
@[simp] theorem State.setFlagThenResult_font (x : Nibble) (f b : Byte) : (s.setFlagThenResult x f b).font = s.font := rfl
@[simp] theorem State.readMem_setFlagThenResult (q : Nat) (x : Nibble) (f b : Byte) : (s.setFlagThenResult x f b).readMem q = s.readMem q := rfl

/-! ### `resetWith` -/

@[simp] theorem State.resetWith_v (rows : Config.GlyphRows) : (State.resetWith rows).v = State.reset.v := rfl
@[simp] theorem State.resetWith_i (rows : Config.GlyphRows) : (State.resetWith rows).i = State.reset.i := rfl
@[simp] theorem State.resetWith_pc (rows : Config.GlyphRows) : (State.resetWith rows).pc = State.reset.pc := rfl
@[simp] theorem State.resetWith_sp (rows : Config.GlyphRows) : (State.resetWith rows).sp = State.reset.sp := rfl
@[simp] theorem State.resetWith_stack (rows : Config.GlyphRows) : (State.resetWith rows).stack = State.reset.stack := rfl
@[simp] theorem State.resetWith_dt (rows : Config.GlyphRows) : (State.resetWith rows).dt = State.reset.dt := rfl
@[simp] theorem State.resetWith_st (rows : Config.GlyphRows) : (State.resetWith rows).st = State.reset.st := rfl
@[simp] theorem State.resetWith_disp (rows : Config.GlyphRows) : (State.resetWith rows).disp = State.reset.disp := rfl
@[simp] theorem State.resetWith_wait (rows : Config.GlyphRows) : (State.resetWith rows).wait = State.reset.wait := rfl
@[simp] theorem State.resetWith_wreg (rows : Config.GlyphRows) : (State.resetWith rows).wreg = State.reset.wreg := rfl
@[simp] theorem State.resetWith_fault (rows : Config.GlyphRows) : (State.resetWith rows).fault = State.reset.fault := rfl
@[simp] theorem State.resetWith_keypad (rows : Config.GlyphRows) : (State.resetWith rows).keypad = State.reset.keypad := rfl
@[simp] theorem State.resetWith_rnd (rows : Config.GlyphRows) : (State.resetWith rows).rnd = State.reset.rnd := rfl
@[simp] theorem State.resetWith_displayChanged (rows : Config.GlyphRows) : (State.resetWith rows).displayChanged = State.reset.displayChanged := rfl
@[simp] theorem State.resetWith_inputs (rows : Config.GlyphRows) : (State.resetWith rows).inputs = State.reset.inputs := rfl
@[simp] theorem State.resetWith_tick (rows : Config.GlyphRows) : (State.resetWith rows).tick = State.reset.tick := rfl
@[simp] theorem State.resetWith_font (rows : Config.GlyphRows) : (State.resetWith rows).font = rows := rfl
theorem State.resetWith_mem (rows : Config.GlyphRows) :
    (State.resetWith rows).mem = Memory.writeBytes [] 0 (Config.fontTable rows) := rfl
@[simp] theorem State.getV_resetWith (q : Nibble) (rows : Config.GlyphRows) :
    (State.resetWith rows).getV q = State.reset.getV q := rfl

/-! ### The font table (20_memory.md R47) -/

@[simp] theorem toNat_rowByte (row : Nibble) : (Config.rowByte row).toNat = row.toNat * 16 := by
  simp only [Config.rowByte, BitVec.toNat_append, BitVec.toNat_ofNat, Nat.shiftLeft_eq, Nat.zero_mod, Nat.or_zero]

@[simp] theorem length_fontTable (rows : Config.GlyphRows) : (Config.fontTable rows).length = 80 := by
  simp [Config.fontTable, Config.glyph0, Config.glyphF]

end Sys2Proof.Machine
end

