-- ==== Sys2Proof/Laws/Step.lean ====
section
/-! SUPPORT. What the parts of a STEP do (40_step_cycle.md R80 to R85), and the step by the kind that is due. -/

namespace Sys2Proof.Machine

/-- The start of a step changes ports and the model's own fields only. -/
theorem State.beginStep_eq (s : State) :
    s.beginStep = { s with keypad := s.beginStep.keypad, rnd := s.beginStep.rnd, displayChanged := false,
                           inputs := s.beginStep.inputs, tick := s.tick + 1 } := by
  unfold State.beginStep State.sampleInputs
  split <;> rfl

variable (s : State)

@[simp] theorem State.beginStep_v : s.beginStep.v = s.v := by rw [State.beginStep_eq]
@[simp] theorem State.beginStep_i : s.beginStep.i = s.i := by rw [State.beginStep_eq]
@[simp] theorem State.beginStep_pc : s.beginStep.pc = s.pc := by rw [State.beginStep_eq]
@[simp] theorem State.beginStep_sp : s.beginStep.sp = s.sp := by rw [State.beginStep_eq]
@[simp] theorem State.beginStep_stack : s.beginStep.stack = s.stack := by rw [State.beginStep_eq]
@[simp] theorem State.beginStep_dt : s.beginStep.dt = s.dt := by rw [State.beginStep_eq]
@[simp] theorem State.beginStep_st : s.beginStep.st = s.st := by rw [State.beginStep_eq]
@[simp] theorem State.beginStep_disp : s.beginStep.disp = s.disp := by rw [State.beginStep_eq]
@[simp] theorem State.beginStep_wait : s.beginStep.wait = s.wait := by rw [State.beginStep_eq]
@[simp] theorem State.beginStep_wreg : s.beginStep.wreg = s.wreg := by rw [State.beginStep_eq]
@[simp] theorem State.beginStep_fault : s.beginStep.fault = s.fault := by rw [State.beginStep_eq]
@[simp] theorem State.beginStep_mem : s.beginStep.mem = s.mem := by rw [State.beginStep_eq]
@[simp] theorem State.beginStep_font : s.beginStep.font = s.font := by rw [State.beginStep_eq]
@[simp] theorem State.beginStep_displayChanged : s.beginStep.displayChanged = false := by rw [State.beginStep_eq]
@[simp] theorem State.beginStep_tick : s.beginStep.tick = s.tick + 1 := by rw [State.beginStep_eq]
@[simp] theorem State.getV_beginStep (q : Nibble) : s.beginStep.getV q = s.getV q := by simp only [State.getV, State.beginStep_v]
@[simp] theorem State.readMem_beginStep (q : Nat) : s.beginStep.readMem q = s.readMem q := by
  simp only [State.readMem, State.beginStep_mem]
@[simp] theorem State.fetch_beginStep : s.beginStep.fetch = s.fetch := by simp [State.fetch]
@[simp] theorem State.fetch_tickTimers : s.tickTimers.fetch = s.fetch := rfl
@[simp] theorem State.mode_beginStep : s.beginStep.mode = s.mode := by simp [State.mode]

/-- A timer counts down by one and stops at 0 (R83). -/
theorem toNat_countDown (t : Byte) : (countDown t).toNat = t.toNat - 1 := by
  unfold countDown
  split
  · next h => simp [h]
  · next h =>
    have : t.toNat ≠ 0 := fun e => h (BitVec.eq_of_toNat_eq (by simpa using e))
    rw [BitVec.toNat_sub_of_le (by simp [BitVec.le_def]; omega)]
    rfl

variable {s}

theorem State.mode_eq_faulted : s.mode = .faulted ↔ s.fault ≠ none := by
  unfold State.mode
  cases s.fault <;> cases s.wait <;> simp

theorem State.mode_eq_awaitingKey : s.mode = .awaitingKey ↔ s.fault = none ∧ s.wait = true := by
  unfold State.mode
  cases s.fault <;> cases s.wait <;> simp

theorem State.mode_eq_running : s.mode = .running ↔ s.fault = none ∧ s.wait = false := by
  unfold State.mode
  cases s.fault <;> cases s.wait <;> simp

/-- The fetch answers none exactly above 4094, and else the two bytes, high one first (R84). -/
theorem State.fetch_eq (s : State) :
    s.fetch = if 4094 < s.pc.toNat then none else some (wordOfBytes (s.readMem s.pc.toNat) (s.readMem (s.pc.toNat + 1))) :=
  rfl

/-- The least pressed key (R82). -/
theorem State.firstKey_eq_some {k : Nat} :
    s.firstKey = some k ↔ k < 16 ∧ s.keypad.getLsbD k = true ∧ ∀ j < k, s.keypad.getLsbD j = false := by
  unfold State.firstKey State.keyDown
  rw [List.find?_range_eq_some]
  simp
  tauto

theorem State.firstKey_eq_none : s.firstKey = none ↔ s.keypad = 0 := by
  unfold State.firstKey State.keyDown
  simp only [List.find?_eq_none, List.mem_range, Bool.not_eq_true]
  constructor
  · intro h
    exact BitVec.eq_of_getLsbD_eq fun k hk => by simpa using h k hk
  · rintro h k -
    simp [h]

/-! ### The step by kind -/

theorem step_of_faulted (h : s.mode = .faulted) : step s = .next s.beginStep := by
  simp [step, stepByMode, h]

theorem step_of_awaitingKey (h : s.mode = .awaitingKey) : step s = .next s.beginStep.awaitKey := by
  simp [step, stepByMode, h]

theorem step_of_running {w : Word} (h : s.mode = .running) (f : s.fetch = some w) :
    step s = exec (decodeWord w) s.beginStep.tickTimers := by
  simp [step, stepByMode, runInstruction, h, f]

theorem step_of_fetch_fault (h : s.mode = .running) (f : s.fetch = none) :
    step s = .next (s.beginStep.tickTimers.raise .fetchOutOfRange s.pc) := by
  simp [step, stepByMode, runInstruction, h, f]

/-- Everything a STEP can do: one of these four, by mode and fetch. -/
theorem step_cases (s : State) :
    (s.mode = .faulted ∧ step s = .next s.beginStep) ∨
    (s.mode = .awaitingKey ∧ step s = .next s.beginStep.awaitKey) ∨
    (s.mode = .running ∧ s.fetch = none ∧ step s = .next (s.beginStep.tickTimers.raise .fetchOutOfRange s.pc)) ∨
    ∃ w, s.mode = .running ∧ s.fetch = some w ∧ step s = exec (decodeWord w) s.beginStep.tickTimers := by
  cases h : s.mode with
  | faulted => exact .inl ⟨rfl, step_of_faulted h⟩
  | awaitingKey => exact .inr (.inl ⟨rfl, step_of_awaitingKey h⟩)
  | running =>
    cases f : s.fetch with
    | none => exact .inr (.inr (.inl ⟨rfl, rfl, step_of_fetch_fault h f⟩))
    | some w => exact .inr (.inr (.inr ⟨w, rfl, rfl, step_of_running h f⟩))

end Sys2Proof.Machine
end

