-- ==== Sys2Proof/Laws/Core.lean ====
section
/-! SUPPORT. The vocabulary of claims, field by field. -/

namespace Sys2Proof.Safety

open Sys2Proof.Machine

/-- Two states are the same core iff every field of 10_state.md is the same. -/
theorem sameCore_iff {s t : State} :
    SameCore s t ↔ t.v = s.v ∧ t.i = s.i ∧ t.pc = s.pc ∧ t.sp = s.sp ∧ t.stack = s.stack ∧ t.dt = s.dt ∧ t.st = s.st ∧
      t.disp = s.disp ∧ t.wait = s.wait ∧ t.wreg = s.wreg ∧ t.fault = s.fault ∧ t.mem = s.mem ∧
      t.font = s.font := by
  cases s
  cases t
  simp only [SameCore, State.mk.injEq, and_true, true_and]

/-- States with the same memory read the same. -/
theorem sameMemory_of_mem_eq {s t : State} (h : t.mem = s.mem) : SameMemory s t := fun a => by
  simp only [State.readMem, h]

/-- Raising a fault is the outcome `Faulted` of the claims. -/
theorem faulted_raise (s : State) (cause : FaultCause) (info : Word) :
    Faulted cause info.toNat s (s.raise cause info) :=
  ⟨rfl, _, rfl, rfl, rfl, rfl⟩

end Sys2Proof.Safety
end

