-- ==== Sys2Proof/Laws/Display.lean ====
section
/-! SUPPORT. Pixels and the sprite loop (43_display.md R141). `drawRows_spec` says once everything the loops do;
that no pixel is visited twice is `spriteCol_inj` and `spriteRow_inj`. -/

namespace Sys2Proof.Machine

theorem Display.pixel_setPixel (d : Display) (c c' : Fin 64) (r r' : Fin 32) (b : Bool) :
    (d.setPixel c r b).pixel c' r' = if c' = c ∧ r' = r then b else d.pixel c' r' := by
  unfold Display.pixel Display.setPixel
  rw [Vector.getElem_set]
  by_cases hc : c.val = c'.val
  · have : c' = c := Fin.ext hc.symm
    subst this
    simp [Vector.getElem_set, Fin.ext_iff, eq_comm]
  · simp [hc, Fin.ext_iff, eq_comm]

@[simp] theorem Display.pixel_clear (c : Fin 64) (r : Fin 32) : Display.clear.pixel c r = false := by
  simp [Display.pixel, Display.clear]

/-- Two displays with the same pixels are the same. -/
theorem Display.ext_pixel {d e : Display} (h : ∀ (c : Fin 64) (r : Fin 32), d.pixel c r = e.pixel c r) : d = e :=
  Vector.ext fun c hc => Vector.ext fun r hr => h ⟨c, hc⟩ ⟨r, hr⟩

/-- The eight columns of a sprite row are distinct (R141). -/
theorem spriteCol_inj (vx : Byte) {j k : Nat} (hj : j < 8) (hk : k < 8) (h : spriteCol vx j = spriteCol vx k) :
    j = k := by
  simp only [spriteCol, Fin.ofNat, Fin.mk.injEq] at h
  omega

/-- The at most sixteen rows of a sprite are distinct (R141). -/
theorem spriteRow_inj (vy : Byte) {j k : Nat} (hj : j < 16) (hk : k < 16) (h : spriteRow vy j = spriteRow vy k) :
    j = k := by
  simp only [spriteRow, Fin.ofNat, Fin.mk.injEq] at h
  omega

/-- What one sprite bit does to the pixels. -/
theorem pixel_drawBit (vx vy : Byte) (row : Nat) (b : Byte) (acc : Display × Bool) (bit : Nat) (c : Fin 64)
    (r : Fin 32) :
    (drawBit vx vy row b acc bit).1.pixel c r =
      if c = spriteCol vx bit ∧ r = spriteRow vy row then acc.1.pixel c r ^^ spriteBit b bit else acc.1.pixel c r := by
  simp only [drawBit, Display.pixel_setPixel]
  split
  · next h => rw [h.1, h.2]
  · rfl

/-- What one sprite bit does to the collision flag. -/
theorem collision_drawBit (vx vy : Byte) (row : Nat) (b : Byte) (acc : Display × Bool) (bit : Nat) :
    (drawBit vx vy row b acc bit).2 =
      (acc.2 || (spriteBit b bit && acc.1.pixel (spriteCol vx bit) (spriteRow vy row))) := rfl

/-- What the first `m` bits of a sprite row do: they flip the pixels under set bits, and collide where one was lit. -/
theorem foldl_drawBit (vx vy : Byte) (row : Nat) (b : Byte) (acc : Display × Bool) (m : Nat) (hm : m ≤ 8) :
    (∀ (c : Fin 64) (r : Fin 32), ((List.range m).foldl (drawBit vx vy row b) acc).1.pixel c r = true ↔
      ¬ (acc.1.pixel c r = true ↔
        ∃ bit, bit < m ∧ c = spriteCol vx bit ∧ r = spriteRow vy row ∧ spriteBit b bit = true)) ∧
    (((List.range m).foldl (drawBit vx vy row b) acc).2 = true ↔ acc.2 = true ∨
      ∃ bit, bit < m ∧ spriteBit b bit = true ∧ acc.1.pixel (spriteCol vx bit) (spriteRow vy row) = true) := by
  induction m with
  | zero => simp
  | succ m ih =>
    obtain ⟨ihp, ihc⟩ := ih (by omega)
    have fresh : ¬ ∃ bit, bit < m ∧ spriteCol vx m = spriteCol vx bit ∧ spriteRow vy row = spriteRow vy row ∧
        spriteBit b bit = true := by
      rintro ⟨bit, hb, hc, -⟩
      have := spriteCol_inj vx (by omega) (by omega) hc
      omega
    have old : (((List.range m).foldl (drawBit vx vy row b) acc).1.pixel (spriteCol vx m) (spriteRow vy row) = true) ↔
        acc.1.pixel (spriteCol vx m) (spriteRow vy row) = true := by
      rw [ihp, iff_false_intro fresh]; simp
    rw [List.range_succ, List.foldl_append]
    refine ⟨fun c r => ?_, ?_⟩
    · simp only [List.foldl_cons, List.foldl_nil, pixel_drawBit]
      split
      · next h =>
        obtain ⟨rfl, rfl⟩ := h
        have here : (∃ bit, bit < m + 1 ∧ spriteCol vx m = spriteCol vx bit ∧ spriteRow vy row = spriteRow vy row ∧
            spriteBit b bit = true) ↔ spriteBit b m = true := by
          constructor
          · rintro ⟨bit, hb, hc, -, hs⟩
            rwa [spriteCol_inj vx (by omega) (by omega) hc]
          · exact fun hs => ⟨m, by omega, rfl, rfl, hs⟩
        rw [here, ← old]
        cases Display.pixel _ _ _ <;> cases spriteBit b m <;> simp
      · next h =>
        rw [ihp]
        have same : (∃ bit, bit < m + 1 ∧ c = spriteCol vx bit ∧ r = spriteRow vy row ∧ spriteBit b bit = true) ↔
            ∃ bit, bit < m ∧ c = spriteCol vx bit ∧ r = spriteRow vy row ∧ spriteBit b bit = true := by
          constructor
          · rintro ⟨bit, hb, rfl, rfl, hs⟩
            have : bit ≠ m := by rintro rfl; exact h ⟨rfl, rfl⟩
            exact ⟨bit, by omega, rfl, rfl, hs⟩
          · rintro ⟨bit, hb, rest⟩
            exact ⟨bit, by omega, rest⟩
        rw [same]
    · simp only [List.foldl_cons, List.foldl_nil, collision_drawBit, Bool.or_eq_true, Bool.and_eq_true, ihc, old]
      constructor
      · rintro ((h | ⟨bit, hb, h⟩) | h)
        · exact .inl h
        · exact .inr ⟨bit, by omega, h⟩
        · exact .inr ⟨m, by omega, h⟩
      · rintro (h | ⟨bit, hb, h⟩)
        · exact .inl (.inl h)
        · rcases Nat.lt_succ_iff_lt_or_eq.mp hb with hb | rfl
          · exact .inl (.inr ⟨bit, hb, h⟩)
          · exact .inr h

/-- What a sprite row does (R141): `foldl_drawBit` at all eight bits. -/
theorem drawRow_spec (vx vy : Byte) (row : Nat) (b : Byte) (acc : Display × Bool) :
    (∀ (c : Fin 64) (r : Fin 32), (drawRow vx vy row b acc).1.pixel c r = true ↔
      ¬ (acc.1.pixel c r = true ↔
        ∃ bit, bit < 8 ∧ c = spriteCol vx bit ∧ r = spriteRow vy row ∧ spriteBit b bit = true)) ∧
    ((drawRow vx vy row b acc).2 = true ↔ acc.2 = true ∨
      ∃ bit, bit < 8 ∧ spriteBit b bit = true ∧ acc.1.pixel (spriteCol vx bit) (spriteRow vy row) = true) :=
  foldl_drawBit vx vy row b acc 8 (Nat.le_refl 8)

/-- The sprite rows `row`, `row + 1`, ... lay a set bit on the pixel (43_display.md R142). -/
def spriteCovers (vx vy : Byte) (row : Nat) (bytes : List Byte) (c : Fin 64) (r : Fin 32) : Prop :=
  ∃ k bit : Nat, k < bytes.length ∧ bit < 8 ∧ c = spriteCol vx bit ∧ r = spriteRow vy (row + k) ∧
    spriteBit (bytes.getD k 0) bit = true

theorem spriteCovers_cons (vx vy : Byte) (row : Nat) (b : Byte) (bs : List Byte) (c : Fin 64) (r : Fin 32) :
    spriteCovers vx vy row (b :: bs) c r ↔
      (∃ bit, bit < 8 ∧ c = spriteCol vx bit ∧ r = spriteRow vy row ∧ spriteBit b bit = true) ∨
      spriteCovers vx vy (row + 1) bs c r := by
  constructor
  · rintro ⟨_ | k, bit, hk, h⟩
    · exact .inl ⟨bit, by simpa using h⟩
    · exact .inr ⟨k, bit, by simpa using hk, by simpa [Nat.add_assoc, Nat.add_comm 1] using h⟩
  · rintro (⟨bit, h⟩ | ⟨k, bit, hk, h⟩)
    · exact ⟨0, bit, by simp, by simpa using h⟩
    · exact ⟨k + 1, bit, by simpa using hk, by simpa [Nat.add_assoc, Nat.add_comm 1] using h⟩

/-- Two flips by conditions that exclude each other are one flip by either. -/
theorem flip_flip {p q r : Prop} (apart : r → ¬ q) : (¬ ((¬ (p ↔ q)) ↔ r)) ↔ ¬ (p ↔ (q ∨ r)) := by
  by_cases r <;> by_cases q <;> simp_all

/-- What the rows of a sprite do: each flips the pixels it covers, no pixel twice, and they collide iff a covered pixel
was lit (R141). -/
theorem drawRows_spec (vx vy : Byte) (row : Nat) (bytes : List Byte) (acc : Display × Bool)
    (fits : row + bytes.length ≤ 16) :
    (∀ (c : Fin 64) (r : Fin 32), (drawRows vx vy row bytes acc).1.pixel c r = true ↔
      ¬ (acc.1.pixel c r = true ↔ spriteCovers vx vy row bytes c r)) ∧
    ((drawRows vx vy row bytes acc).2 = true ↔ acc.2 = true ∨
      ∃ (c : Fin 64) (r : Fin 32), acc.1.pixel c r = true ∧ spriteCovers vx vy row bytes c r) := by
  induction bytes generalizing row acc with
  | nil => simp [drawRows, spriteCovers]
  | cons b bs ih =>
    simp only [List.length_cons] at fits
    obtain ⟨rp, rc⟩ := drawRow_spec vx vy row b acc
    obtain ⟨ihp, ihc⟩ := ih (row + 1) (drawRow vx vy row b acc) (by omega)
    have apart (c : Fin 64) (r : Fin 32) (h : spriteCovers vx vy (row + 1) bs c r) :
        ¬ ∃ bit, bit < 8 ∧ c = spriteCol vx bit ∧ r = spriteRow vy row ∧ spriteBit b bit = true := by
      rintro ⟨-, -, -, hr, -⟩
      obtain ⟨k, -, hk, -, -, hr', -⟩ := h
      have := spriteRow_inj vy (by omega) (by omega) (hr ▸ hr')
      omega
    refine ⟨fun c r => ?_, ?_⟩
    · rw [drawRows, ihp, rp, spriteCovers_cons]
      exact flip_flip (apart c r)
    · rw [drawRows, ihc, rc]
      constructor
      · rintro ((h | ⟨bit, hb, hs, hp⟩) | ⟨c, r, hp, hs⟩)
        · exact .inl h
        · exact .inr ⟨_, _, hp, (spriteCovers_cons ..).mpr (.inl ⟨bit, hb, rfl, rfl, hs⟩)⟩
        · refine .inr ⟨c, r, ?_, (spriteCovers_cons ..).mpr (.inr hs)⟩
          rw [rp, iff_false_intro (apart c r hs)] at hp
          simpa using hp
      · rintro (h | ⟨c, r, hp, hs⟩)
        · exact .inl (.inl h)
        · rcases (spriteCovers_cons ..).mp hs with ⟨bit, hb, rfl, rfl, set⟩ | hs
          · exact .inl (.inr ⟨bit, hb, set, hp⟩)
          · refine .inr ⟨c, r, ?_, hs⟩
            rw [rp, iff_false_intro (apart c r hs)]
            simpa using hp

end Sys2Proof.Machine
end

