-- ==== Sys2Proof/Laws/Encoding.lean ====
section
/-! SUPPORT. The operand fields and the formats by arithmetic (30_encoding.md R61, R62): each field of a word built in a
format is the operand it was built from, and a word is built from its own fields. -/

namespace Sys2Proof

/-! ### Fields by arithmetic -/

theorem toNat_classOf (w : Word) : (classOf w).toNat = w.toNat / 4096 := by
  simp [classOf, Nat.shiftRight_eq_div_pow]
  omega

theorem toNat_xOf (w : Word) : (xOf w).toNat = w.toNat / 256 % 16 := by
  simp [xOf, Nat.shiftRight_eq_div_pow]

theorem toNat_yOf (w : Word) : (yOf w).toNat = w.toNat / 16 % 16 := by
  simp [yOf, Nat.shiftRight_eq_div_pow]

theorem toNat_nOf (w : Word) : (nOf w).toNat = w.toNat % 16 := by
  simp [nOf]

theorem toNat_kkOf (w : Word) : (kkOf w).toNat = w.toNat % 256 := by
  simp [kkOf]

theorem toNat_nnnOf (w : Word) : (nnnOf w).toNat = w.toNat % 4096 := by
  simp [nnnOf]

/-! ### Formats by arithmetic -/

theorem toNat_append_mul {m n : Nat} (a : BitVec m) (b : BitVec n) :
    (a ++ b).toNat = a.toNat * 2 ^ n + b.toNat := by
  rw [BitVec.toNat_append, ← Nat.shiftLeft_add_eq_or_of_lt b.isLt, Nat.shiftLeft_eq]

theorem toNat_wordOfBytes (hi lo : Byte) : (wordOfBytes hi lo).toNat = hi.toNat * 256 + lo.toNat :=
  toNat_append_mul hi lo

theorem toNat_wordXYN (c x y n : Nibble) :
    (wordXYN c x y n).toNat = c.toNat * 4096 + x.toNat * 256 + y.toNat * 16 + n.toNat := by
  have h : (wordXYN c x y n).toNat = ((c.toNat * 2 ^ 4 + x.toNat) * 2 ^ 4 + y.toNat) * 2 ^ 4 + n.toNat := by
    rw [← toNat_append_mul, ← toNat_append_mul, ← toNat_append_mul]
    rfl
  omega

theorem toNat_wordXKK (c x : Nibble) (kk : Byte) :
    (wordXKK c x kk).toNat = c.toNat * 4096 + x.toNat * 256 + kk.toNat := by
  have h : (wordXKK c x kk).toNat = (c.toNat * 2 ^ 4 + x.toNat) * 2 ^ 8 + kk.toNat := by
    rw [← toNat_append_mul, ← toNat_append_mul]
    rfl
  rw [h]
  omega

theorem toNat_wordNNN (c : Nibble) (nnn : Addr12) : (wordNNN c nnn).toNat = c.toNat * 4096 + nnn.toNat := by
  have h : (wordNNN c nnn).toNat = c.toNat * 2 ^ 12 + nnn.toNat := by
    rw [← toNat_append_mul]
    rfl
  omega

/-! ### Fields of a built word -/

@[simp] theorem classOf_wordXYN (c x y n : Nibble) : classOf (wordXYN c x y n) = c :=
  BitVec.eq_of_toNat_eq (by rw [toNat_classOf, toNat_wordXYN]; omega)
@[simp] theorem xOf_wordXYN (c x y n : Nibble) : xOf (wordXYN c x y n) = x :=
  BitVec.eq_of_toNat_eq (by rw [toNat_xOf, toNat_wordXYN]; omega)
@[simp] theorem yOf_wordXYN (c x y n : Nibble) : yOf (wordXYN c x y n) = y :=
  BitVec.eq_of_toNat_eq (by rw [toNat_yOf, toNat_wordXYN]; omega)
@[simp] theorem nOf_wordXYN (c x y n : Nibble) : nOf (wordXYN c x y n) = n :=
  BitVec.eq_of_toNat_eq (by rw [toNat_nOf, toNat_wordXYN]; omega)
@[simp] theorem classOf_wordXKK (c x : Nibble) (kk : Byte) : classOf (wordXKK c x kk) = c :=
  BitVec.eq_of_toNat_eq (by rw [toNat_classOf, toNat_wordXKK]; omega)
@[simp] theorem xOf_wordXKK (c x : Nibble) (kk : Byte) : xOf (wordXKK c x kk) = x :=
  BitVec.eq_of_toNat_eq (by rw [toNat_xOf, toNat_wordXKK]; omega)
@[simp] theorem kkOf_wordXKK (c x : Nibble) (kk : Byte) : kkOf (wordXKK c x kk) = kk :=
  BitVec.eq_of_toNat_eq (by rw [toNat_kkOf, toNat_wordXKK]; omega)
@[simp] theorem classOf_wordNNN (c : Nibble) (nnn : Addr12) : classOf (wordNNN c nnn) = c :=
  BitVec.eq_of_toNat_eq (by rw [toNat_classOf, toNat_wordNNN]; omega)
@[simp] theorem nnnOf_wordNNN (c : Nibble) (nnn : Addr12) : nnnOf (wordNNN c nnn) = nnn :=
  BitVec.eq_of_toNat_eq (by rw [toNat_nnnOf, toNat_wordNNN]; omega)

/-! ### A word from its own fields -/

theorem wordXYN_fields (w : Word) : wordXYN (classOf w) (xOf w) (yOf w) (nOf w) = w :=
  BitVec.eq_of_toNat_eq (by rw [toNat_wordXYN, toNat_classOf, toNat_xOf, toNat_yOf, toNat_nOf]; omega)

theorem wordXKK_fields (w : Word) : wordXKK (classOf w) (xOf w) (kkOf w) = w :=
  BitVec.eq_of_toNat_eq (by rw [toNat_wordXKK, toNat_classOf, toNat_xOf, toNat_kkOf]; omega)

theorem wordNNN_fields (w : Word) : wordNNN (classOf w) (nnnOf w) = w :=
  BitVec.eq_of_toNat_eq (by rw [toNat_wordNNN, toNat_classOf, toNat_nnnOf]; omega)

/-- A built word is `w` iff its parts are the fields of `w`. -/
theorem wordXYN_eq_iff (c x y n : Nibble) (w : Word) :
    wordXYN c x y n = w ↔ c = classOf w ∧ x = xOf w ∧ y = yOf w ∧ n = nOf w := by
  constructor
  · rintro rfl
    simp
  · rintro ⟨rfl, rfl, rfl, rfl⟩
    exact wordXYN_fields w

/-- The sixteen classes. -/
theorem nibble_cases (c : Nibble) :
    c = 0x0#4 ∨ c = 0x1#4 ∨ c = 0x2#4 ∨ c = 0x3#4 ∨ c = 0x4#4 ∨ c = 0x5#4 ∨ c = 0x6#4 ∨ c = 0x7#4 ∨ c = 0x8#4 ∨
      c = 0x9#4 ∨ c = 0xA#4 ∨ c = 0xB#4 ∨ c = 0xC#4 ∨ c = 0xD#4 ∨ c = 0xE#4 ∨ c = 0xF#4 := by
  have : ∀ k : Fin 16, let c : Nibble := BitVec.ofFin k
      c = 0x0#4 ∨ c = 0x1#4 ∨ c = 0x2#4 ∨ c = 0x3#4 ∨ c = 0x4#4 ∨ c = 0x5#4 ∨ c = 0x6#4 ∨ c = 0x7#4 ∨ c = 0x8#4 ∨
      c = 0x9#4 ∨ c = 0xA#4 ∨ c = 0xB#4 ∨ c = 0xC#4 ∨ c = 0xD#4 ∨ c = 0xE#4 ∨ c = 0xF#4 := by decide
  exact this c.toFin

/-! ### The masks of R64 keep whole fields -/

theorem getLsbD_wordXYN (c x y n : Nibble) (k : Nat) :
    (wordXYN c x y n).getLsbD k =
      if k < 4 then n.getLsbD k else if k < 8 then y.getLsbD (k - 4)
      else if k < 12 then x.getLsbD (k - 8) else c.getLsbD (k - 12) := by
  have h : (wordXYN c x y n).getLsbD k = (c ++ x ++ y ++ n).getLsbD k := rfl
  rw [h]
  simp only [BitVec.getLsbD_append, Nat.sub_sub]
  repeat' split
  all_goals first | rfl | omega

theorem and_maskClass (w : Word) : w &&& 0xF000#16 = wordXYN (classOf w) 0 0 0 := by
  refine BitVec.eq_of_getLsbD_eq fun k hk => ?_
  rw [getLsbD_wordXYN]
  interval_cases k <;> simp [classOf]

theorem and_maskClassLow (w : Word) : w &&& 0xF00F#16 = wordXYN (classOf w) 0 0 (nOf w) := by
  refine BitVec.eq_of_getLsbD_eq fun k hk => ?_
  rw [getLsbD_wordXYN]
  interval_cases k <;> simp [classOf, nOf]

theorem and_maskClassByte (w : Word) : w &&& 0xF0FF#16 = wordXKK (classOf w) 0 (kkOf w) := by
  have h : w &&& 0xF0FF#16 = wordXYN (classOf w) 0 (yOf w) (nOf w) := by
    refine BitVec.eq_of_getLsbD_eq fun k hk => ?_
    rw [getLsbD_wordXYN]
    interval_cases k <;> simp [classOf, nOf, yOf]
  rw [h]
  apply BitVec.eq_of_toNat_eq
  rw [toNat_wordXYN, toNat_wordXKK, toNat_kkOf, toNat_yOf, toNat_nOf]
  omega

theorem and_maskAll (w : Word) : w &&& 0xFFFF#16 = w := by
  have : (0xFFFF#16 : Word) = BitVec.allOnes 16 := by decide
  rw [this, BitVec.and_allOnes]

/-- The low byte is nibbles 3 and 4. -/
theorem kkOf_eq_iff (w : Word) (y n : Nibble) : kkOf w = y ++ n ↔ yOf w = y ∧ nOf w = n := by
  constructor
  · intro h
    have := congrArg BitVec.toNat h
    rw [toNat_kkOf, toNat_append_mul] at this
    constructor <;> apply BitVec.eq_of_toNat_eq
    · rw [toNat_yOf]; omega
    · rw [toNat_nOf]; omega
  · rintro ⟨rfl, rfl⟩
    apply BitVec.eq_of_toNat_eq
    rw [toNat_kkOf, toNat_append_mul, toNat_yOf, toNat_nOf]
    omega

/-- A word in the formats XKK and X is `w` iff its parts are the fields of `w`. -/
theorem wordXKK_eq_iff (c x : Nibble) (kk : Byte) (w : Word) :
    wordXKK c x kk = w ↔ c = classOf w ∧ x = xOf w ∧ kk = kkOf w := by
  constructor
  · rintro rfl
    simp
  · rintro ⟨rfl, rfl, rfl⟩
    exact wordXKK_fields w

/-- A row with mask 0xF000 compares the class. -/
theorem and_maskClass_eq_iff (w : Word) (c : Nibble) : w &&& 0xF000#16 = wordXYN c 0 0 0 ↔ classOf w = c := by
  rw [and_maskClass, wordXYN_eq_iff]
  simp

/-- A row with mask 0xF00F compares the class and the low nibble. -/
theorem and_maskClassLow_eq_iff (w : Word) (c n : Nibble) :
    w &&& 0xF00F#16 = wordXYN c 0 0 n ↔ classOf w = c ∧ nOf w = n := by
  rw [and_maskClassLow, wordXYN_eq_iff]
  simp

/-- A row with mask 0xF0FF compares the class and the low byte. -/
theorem and_maskClassByte_eq_iff (w : Word) (c : Nibble) (kk : Byte) :
    w &&& 0xF0FF#16 = wordXKK c 0 kk ↔ classOf w = c ∧ kkOf w = kk := by
  rw [and_maskClassByte, wordXKK_eq_iff]
  simp

/-- The unknown words by the fields the rows of R64 compare (the classes of R66). -/
theorem isUnknownWord_iff (w : Word) :
    isUnknownWord w = true ↔
      w ≠ 0x00E0 ∧ w ≠ 0x00EE ∧
      classOf w ∉ [0x1#4, 0x2#4, 0x3#4, 0x4#4, 0x6#4, 0x7#4, 0xA#4, 0xB#4, 0xC#4, 0xD#4] ∧
      (classOf w = 0x5#4 → nOf w ≠ 0) ∧ (classOf w = 0x9#4 → nOf w ≠ 0) ∧
      (classOf w = 0x8#4 → nOf w ∉ [0x0#4, 0x1#4, 0x2#4, 0x3#4, 0x4#4, 0x5#4, 0x6#4, 0x7#4, 0xE#4]) ∧
      (classOf w = 0xE#4 → kkOf w ∉ [0x9E#8, 0xA1#8]) ∧
      (classOf w = 0xF#4 → kkOf w ∉ [0x07#8, 0x0A#8, 0x15#8, 0x18#8, 0x1E#8, 0x29#8, 0x33#8, 0x55#8, 0x65#8]) := by
  have rows : isUnknownWord w = true ↔ ∀ row ∈ opcodeRows, w &&& row.1 ≠ row.2 := by
    simp [isUnknownWord, bne_iff_ne]
  have cls (c : Nibble) (p : Word) (hp : p = wordXYN c 0 0 0) : w &&& 0xF000#16 = p ↔ classOf w = c :=
    hp ▸ and_maskClass_eq_iff w c
  have low (c n : Nibble) (p : Word) (hp : p = wordXYN c 0 0 n) : w &&& 0xF00F#16 = p ↔ classOf w = c ∧ nOf w = n :=
    hp ▸ and_maskClassLow_eq_iff w c n
  have byte (c : Nibble) (k : Byte) (p : Word) (hp : p = wordXKK c 0 k) :
      w &&& 0xF0FF#16 = p ↔ classOf w = c ∧ kkOf w = k :=
    hp ▸ and_maskClassByte_eq_iff w c k
  rw [rows]
  simp only [opcodeRows, List.cons_append, List.nil_append, List.forall_mem_cons, Ne, and_maskAll, List.not_mem_nil,
    false_implies, implies_true, and_true, not_and,
    cls 1 0x1000#16 rfl, cls 2 0x2000#16 rfl, cls 3 0x3000#16 rfl, cls 4 0x4000#16 rfl, cls 6 0x6000#16 rfl,
    cls 7 0x7000#16 rfl, cls 0xA 0xA000#16 rfl, cls 0xB 0xB000#16 rfl, cls 0xC 0xC000#16 rfl, cls 0xD 0xD000#16 rfl,
    low 5 0 0x5000#16 rfl, low 9 0 0x9000#16 rfl, low 8 0 0x8000#16 rfl, low 8 1 0x8001#16 rfl, low 8 2 0x8002#16 rfl,
    low 8 3 0x8003#16 rfl, low 8 4 0x8004#16 rfl, low 8 5 0x8005#16 rfl, low 8 6 0x8006#16 rfl, low 8 7 0x8007#16 rfl,
    low 8 0xE 0x800E#16 rfl, byte 0xE 0x9E 0xE09E#16 rfl, byte 0xE 0xA1 0xE0A1#16 rfl, byte 0xF 0x07 0xF007#16 rfl,
    byte 0xF 0x0A 0xF00A#16 rfl, byte 0xF 0x15 0xF015#16 rfl, byte 0xF 0x18 0xF018#16 rfl, byte 0xF 0x1E 0xF01E#16 rfl,
    byte 0xF 0x29 0xF029#16 rfl, byte 0xF 0x33 0xF033#16 rfl, byte 0xF 0x55 0xF055#16 rfl, byte 0xF 0x65 0xF065#16 rfl]
  clear rows cls low byte
  simp only [List.mem_cons, List.not_mem_nil, or_false, not_or]
  generalize classOf w = c
  generalize nOf w = n
  generalize kkOf w = k
  constructor <;> intro h <;> simp_all

/-- The rows of R64 are pairwise disjoint: two of them differ in a bit both compare. -/
theorem opcodeRows_disjoint :
    opcodeRows.Pairwise fun a b => a.1 &&& b.1 &&& (a.2 ^^^ b.2) ≠ 0 := by decide

/-- The two bytes of a word, put together again (20_memory.md R43). -/
theorem wordOfBytes_bytes (w : Word) : wordOfBytes (w.extractLsb' 8 8) (w.extractLsb' 0 8) = w := by
  apply BitVec.eq_of_toNat_eq
  rw [toNat_wordOfBytes]
  simp [Nat.shiftRight_eq_div_pow]
  omega

end Sys2Proof
end

