-- ==== Sys2Proof/Laws/Memory.lean ====
section
/-! SUPPORT. Main memory (20_memory.md R40 to R42): read after write, the canonical form, and the range operations. -/

namespace Sys2Proof.Machine

/-- Addresses strictly rising: the half of the canonical form that reads after writes rest on. -/
abbrev Memory.ordered (m : Memory) : Prop := m.Pairwise fun c d => c.1 < d.1

theorem Memory.wf_ordered {m : Memory} (h : m.wf) : m.ordered := h.1

/-! ### One byte -/

theorem Memory.consCell_ordered {m : Memory} {a : Nat} (h : m.ordered) (below : ∀ c ∈ m, a < c.1) (b : Byte) :
    (Memory.consCell a b m).ordered := by
  unfold Memory.consCell
  split
  · exact h
  · exact List.pairwise_cons.mpr ⟨below, h⟩

theorem Memory.mem_consCell {m : Memory} {a : Nat} {b : Byte} {c : Host.Cell} (h : c ∈ Memory.consCell a b m) :
    c ∈ m ∨ (c = (a, b) ∧ b ≠ resetByte a) := by
  unfold Memory.consCell at h
  split at h
  · exact .inl h
  · rcases List.mem_cons.mp h with rfl | h
    · exact .inr ⟨rfl, ‹_›⟩
    · exact .inl h

/-- An address below every listed one reads as after reset. -/
theorem Memory.read_unlisted {m : Memory} {a : Nat} (below : ∀ c ∈ m, a < c.1) : m.read a = resetByte a := by
  induction m with
  | nil => rfl
  | cons c m ih =>
    have := below c (by simp)
    rw [Memory.read, if_neg (by omega), ih fun d hd => below d (by simp [hd])]

theorem Memory.read_consCell {m : Memory} {a : Nat} (below : ∀ c ∈ m, a < c.1) (b : Byte) (q : Nat) :
    (Memory.consCell a b m).read q = if q = a then b else m.read q := by
  unfold Memory.consCell
  split
  · next e =>
    split
    · next hq => rw [hq, Memory.read_unlisted below, e]
    · rfl
  · simp only [Memory.read, eq_comm (a := a)]

theorem Memory.mem_write {m : Memory} {a : Nat} {b : Byte} {c : Host.Cell} (h : c ∈ m.write a b) :
    c ∈ m ∨ (c = (a, b) ∧ b ≠ resetByte a) := by
  induction m with
  | nil => exact Memory.mem_consCell h
  | cons d m ih =>
    simp only [Memory.write] at h
    split at h
    · exact Memory.mem_consCell h
    · split at h
      · exact (Memory.mem_consCell h).imp_left fun hc => List.mem_cons_of_mem _ hc
      · rcases List.mem_cons.mp h with rfl | h
        · simp
        · exact (ih h).imp_left fun hc => List.mem_cons_of_mem _ hc

theorem Memory.write_ordered {m : Memory} (h : m.ordered) (a : Nat) (b : Byte) : (m.write a b).ordered := by
  induction m with
  | nil => exact Memory.consCell_ordered .nil (by simp) b
  | cons d m ih =>
    obtain ⟨first, rest⟩ := List.pairwise_cons.mp h
    simp only [Memory.write]
    split
    · next lt =>
      refine Memory.consCell_ordered h (fun e he => ?_) b
      rcases List.mem_cons.mp he with rfl | he
      · exact lt
      · exact lt.trans (first e he)
    · split
      · next eq => exact Memory.consCell_ordered rest (by simpa [eq] using first) b
      · refine List.pairwise_cons.mpr ⟨fun e he => ?_, ih rest⟩
        rcases Memory.mem_write he with he | ⟨rfl, -⟩
        · exact first e he
        · show d.1 < a
          omega

/-- A write inside memory keeps the canonical form. -/
theorem Memory.write_wf {m : Memory} (h : m.wf) {a : Nat} (ha : a < Config.memSize) (b : Byte) : (m.write a b).wf := by
  refine ⟨Memory.write_ordered h.1 a b, fun c hc => ?_⟩
  rcases Memory.mem_write hc with hc | ⟨rfl, ne⟩
  · exact h.2 c hc
  · exact ⟨ha, ne⟩

/-- A read gives the byte last written to that address, and a write leaves every other address alone (R41). -/
theorem Memory.read_write {m : Memory} (h : m.ordered) (a : Nat) (b : Byte) (q : Nat) :
    (m.write a b).read q = if q = a then b else m.read q := by
  induction m with
  | nil => exact Memory.read_consCell (by simp) b q
  | cons c m ih =>
    obtain ⟨first, rest⟩ := List.pairwise_cons.mp h
    simp only [Memory.write]
    split
    · next lt =>
      refine Memory.read_consCell (fun d hd => ?_) b q
      rcases List.mem_cons.mp hd with rfl | hd
      · exact lt
      · exact lt.trans (first d hd)
    · split
      · next eq =>
        rw [Memory.read_consCell (by simpa [eq] using first)]
        split
        · rfl
        · next ne => rw [Memory.read, if_neg (by omega)]
      · simp only [Memory.read, ih rest]
        split <;> split <;> first | rfl | omega

/-! ### Consecutive bytes -/

theorem Memory.writeBytes_wf {m : Memory} (h : m.wf) (a : Nat) (bytes : List Byte)
    (fits : InMemory a bytes.length) : (m.writeBytes a bytes).wf := by
  induction bytes generalizing m a with
  | nil => exact h
  | cons b bs ih =>
    simp only [InMemory, List.length_cons] at fits
    exact ih (Memory.write_wf h (by omega) b) (a + 1) (by simp only [InMemory]; omega)

/-- After a range write, an address inside the range reads its byte and every other address reads as before. -/
theorem Memory.read_writeBytes {m : Memory} (h : m.ordered) (a : Nat) (bytes : List Byte) (q : Nat) :
    (m.writeBytes a bytes).read q = if a ≤ q then bytes.getD (q - a) (m.read q) else m.read q := by
  induction bytes generalizing m a with
  | nil => simp [Memory.writeBytes]
  | cons b bs ih =>
    rw [Memory.writeBytes, ih (Memory.write_ordered h a b), Memory.read_write h]
    rcases Nat.lt_trichotomy q a with lt | eq | gt
    · simp [show ¬ a + 1 ≤ q by omega, show ¬ a ≤ q by omega, show q ≠ a by omega]
    · simp [eq]
    · rw [show q - a = q - (a + 1) + 1 by omega]
      simp [show a + 1 ≤ q by omega, show a ≤ q by omega, show q ≠ a by omega]

/-! ### The range operations of an instruction -/

/-- A range lies outside memory iff it has an address and its end passes 4096 (R42). -/
theorem not_inMemory (base len : Nat) : ¬ InMemory base len ↔ len ≠ 0 ∧ 4096 < base + len := by
  simp [InMemory, Config.memSize]

/-- A range read answers exactly when the whole range is inside memory (R42). -/
theorem State.readRange_eq_none (s : State) (base len : Nat) :
    s.readRange base len = none ↔ len ≠ 0 ∧ 4096 < base + len := by
  rw [← not_inMemory, State.readRange, ite_eq_right_iff]
  simp

/-- What a range read answers: the bytes of the range in ascending order. -/
theorem State.readRange_eq_some {s : State} {base len : Nat} (h : len = 0 ∨ base + len ≤ 4096) :
    s.readRange base len = some ((List.range len).map fun k => s.readMem (base + k)) :=
  if_pos h

/-- A range write answers exactly when the whole range is inside memory (R42). -/
theorem State.writeRange_eq_none (s : State) (base : Nat) (bytes : List Byte) :
    s.writeRange base bytes = none ↔ bytes.length ≠ 0 ∧ 4096 < base + bytes.length := by
  rw [← not_inMemory, State.writeRange, ite_eq_right_iff]
  simp

/-- What a range write answers: memory alone has changed. -/
theorem State.writeRange_eq_some {s : State} {base : Nat} {bytes : List Byte}
    (h : bytes.length = 0 ∨ base + bytes.length ≤ 4096) :
    s.writeRange base bytes = some { s with mem := s.mem.writeBytes base bytes } :=
  if_pos h

end Sys2Proof.Machine
end

