-- ==== Sys2Proof/Laws/Registers.lean ====
section
/-! SUPPORT. Reading and writing general registers (10_state.md R11), one at a time and as the range V0..Vx
(45_index_memory.md R165, R166), and the two orders of result and flag (42_alu.md R133). -/

namespace Sys2Proof.Machine

theorem State.getV_setV (s : State) (r q : Nibble) (b : Byte) :
    (s.setV r b).getV q = if q = r then b else s.getV q := by
  simp only [State.getV, State.setV, Vector.getElem_set, BitVec.toNat_inj, eq_comm (a := r)]

@[simp] theorem State.getV_setV_self (s : State) (r : Nibble) (b : Byte) : (s.setV r b).getV r = b := by
  simp [State.getV_setV]

theorem State.getV_setV_ne (s : State) {r q : Nibble} (b : Byte) (h : q ≠ r) : (s.setV r b).getV q = s.getV q := by
  simp [State.getV_setV, h]

/-- Result first, flag second: VF holds the flag, and `V[x]` the result unless `x = F` (R126). -/
theorem State.getV_setResultThenFlag (s : State) (x q : Nibble) (b f : Byte) :
    (s.setResultThenFlag x b f).getV q = if q = vf then f else if q = x then b else s.getV q := by
  simp only [State.setResultThenFlag, State.getV_setV]

/-- Flag first, result second: `V[x]` holds the result, and VF the flag unless `x = F` (R127 to R130). -/
theorem State.getV_setFlagThenResult (s : State) (x q : Nibble) (f b : Byte) :
    (s.setFlagThenResult x f b).getV q = if q = x then b else if q = vf then f else s.getV q := by
  simp only [State.setFlagThenResult, State.getV_setV]

/-- A range write changes the register file and nothing else. -/
theorem State.setVs_eq (s : State) (r : Nat) (bytes : List Byte) :
    s.setVs r bytes = { s with v := (s.setVs r bytes).v } := by
  induction bytes generalizing s r with
  | nil => rfl
  | cons b bs ih => rw [State.setVs, ih]; rfl

/-- The registers after a range write that fits in V0..VF. -/
theorem State.getV_setVs (s : State) (r : Nat) (bytes : List Byte) (fits : r + bytes.length ≤ 16) (q : Nibble) :
    (s.setVs r bytes).getV q = if r ≤ q.toNat then bytes.getD (q.toNat - r) (s.getV q) else s.getV q := by
  induction bytes generalizing s r with
  | nil => simp [State.setVs]
  | cons b bs ih =>
    simp only [List.length_cons] at fits
    rw [State.setVs, ih _ _ (by omega), State.getV_setV]
    have hr : (BitVec.ofNat 4 r).toNat = r := by simp; omega
    have hq : q = BitVec.ofNat 4 r ↔ q.toNat = r := by rw [← BitVec.toNat_inj, hr]
    rcases Nat.lt_trichotomy q.toNat r with h | h | h
    · simp [hq, show ¬ r + 1 ≤ q.toNat by omega, show ¬ r ≤ q.toNat by omega, show q.toNat ≠ r by omega]
    · simp [hq, h]
    · rw [show q.toNat - r = q.toNat - (r + 1) + 1 by omega]
      simp [hq, show r + 1 ≤ q.toNat by omega, show r ≤ q.toNat by omega, show q.toNat ≠ r by omega]

@[simp] theorem State.length_getVsUpTo (s : State) (x : Nibble) : (s.getVsUpTo x).length = x.toNat + 1 := by
  simp [State.getVsUpTo]

theorem State.getElem_getVsUpTo (s : State) (x : Nibble) (k : Nat) (h : k < (s.getVsUpTo x).length) :
    (s.getVsUpTo x)[k] = s.getV (BitVec.ofNat 4 k) := by
  simp [State.getVsUpTo]

end Sys2Proof.Machine
end

