-- ==== Sys2Proof/Laws/Stack.lean ====
section
/-! SUPPORT. The call stack (10_state.md R17; 41_flow.md R101, R103). -/

namespace Sys2Proof.Machine

/-- A push answers none exactly when the stack is full. -/
theorem State.push_eq_none (s : State) (a : Word) : s.push a = none ↔ s.sp.val = 16 := by
  unfold State.push
  split <;> simp <;> omega

/-- What a push does: it writes the entry at `SP`, counts it, and changes nothing else. -/
theorem State.push_eq_some {s s' : State} {a : Word} (h : s.push a = some s') :
    s' = { s with sp := s'.sp, stack := s'.stack } ∧ s'.sp.val = s.sp.val + 1 ∧
      ∀ k : Fin 16, s'.stack[k.val] = if k.val = s.sp.val then a else s.stack[k.val] := by
  unfold State.push at h
  split at h
  · cases h
    refine ⟨rfl, rfl, fun k => ?_⟩
    simp [Vector.getElem_set, eq_comm]
  · cases h

/-- A pop answers none exactly when the stack is empty. -/
theorem State.pop_eq_none (s : State) : s.pop = none ↔ s.sp.val = 0 := by
  unfold State.pop
  split <;> simp <;> omega

/-- What a pop does: it answers the entry below `SP`, uncounts it, and changes nothing else. -/
theorem State.pop_eq_some {s s' : State} {a : Word} (h : s.pop = some (a, s')) :
    s' = { s with sp := s'.sp } ∧ s'.sp.val + 1 = s.sp.val ∧
      ∀ k : Fin 16, k.val + 1 = s.sp.val → a = s.stack[k.val] := by
  unfold State.pop at h
  split at h
  · cases h
    refine ⟨rfl, by simp; omega, fun k hk => ?_⟩
    simp [← hk]
  · cases h

end Sys2Proof.Machine
end

