-- ==== Sys2Proof/Laws/Operations.lean ====
section
/-! SUPPORT. For each operation that several meanings share, everything it can do, said once: the way it completes, and
the fault it raises. -/

namespace Sys2Proof.Machine

variable (s : State)

@[simp] theorem toNat_addrOf (nnn : Addr12) : (addrOf nnn).toNat = nnn.toNat := by
  simp only [addrOf, BitVec.toNat_setWidth]
  omega

@[simp] theorem toNat_indexedAddr (nnn : Addr12) (v0 : Byte) : (indexedAddr nnn v0).toNat = nnn.toNat + v0.toNat := by
  simp only [indexedAddr, BitVec.toNat_add, BitVec.toNat_setWidth]
  omega

@[simp] theorem toNat_glyphAddr (vx : Byte) : (glyphAddr vx).toNat = vx.toNat * 5 := by
  simp only [glyphAddr, Config.fontBase, Config.glyphSize, BitVec.toNat_ofNat]
  omega

@[simp] theorem toNat_firstOutOfRange (i : Word) : (firstOutOfRange i).toNat = max i.toNat 4096 := by
  simp only [firstOutOfRange, Config.memSize, BitVec.toNat_ofNat]
  omega

@[simp] theorem toNat_infoOfByte (b : Byte) : (infoOfByte b).toNat = b.toNat := by
  simp only [infoOfByte, BitVec.toNat_setWidth]
  omega

/-- A conditional skip is a jump to `PC + 4` or `PC + 2` (41_flow.md R104). -/
theorem State.skipIf_eq (c : Bool) : s.skipIf c = s.jump (if c then s.pc + 4 else s.pc + 2) := by
  cases c <;> rfl

/-- A key skip faults on an index above 15 and is a conditional skip otherwise (44_keypad_timers.md R150, R151). -/
theorem State.skipOnKey_cases (x : Nibble) (pressed : Bool) :
    (15 < (s.getV x).toNat ∧ s.skipOnKey x pressed = s.raise .keyIndexOutOfRange (infoOfByte (s.getV x))) ∨
    ((s.getV x).toNat ≤ 15 ∧
      s.skipOnKey x pressed = s.jump (if s.keyDown (s.getV x).toNat == pressed then s.pc + 4 else s.pc + 2)) := by
  unfold State.skipOnKey
  split
  · exact .inl ⟨‹_›, rfl⟩
  · exact .inr ⟨by omega, s.skipIf_eq _⟩

/-- A store from `I` on writes all its bytes and advances, or faults with nothing written (45_index_memory.md R164,
R165). -/
theorem State.storeAtI_cases (bytes : List Byte) (h : bytes ≠ []) :
    (s.i.toNat + bytes.length ≤ 4096 ∧
      s.storeAtI bytes = { s with mem := s.mem.writeBytes s.i.toNat bytes, pc := s.pc + 2 }) ∨
    (4096 < s.i.toNat + bytes.length ∧ s.storeAtI bytes = s.raise .memOutOfRange (firstOutOfRange s.i)) := by
  have pos := List.length_pos_iff.mpr h
  unfold State.storeAtI State.writeRange
  by_cases inside : InMemory s.i.toNat bytes.length
  · rw [if_pos inside]
    exact .inl ⟨inside.resolve_left (by omega), rfl⟩
  · rw [if_neg inside]
    exact .inr ⟨((not_inMemory ..).1 inside).2, rfl⟩

/-- What the meaning of `Dxyn` can do (43_display.md R141). -/
theorem exec_drwVxVyN_cases (x y n : Nibble) :
    ((n = 0 ∨ s.i.toNat + n.toNat ≤ 4096) ∧ ∃ drawn : Display × Bool,
      drawn = drawRows (s.getV x) (s.getV y) 0 ((List.range n.toNat).map fun k => s.readMem (s.i.toNat + k))
        (s.disp, false) ∧
      exec (.drwVxVyN x y n) s = .next ((s.setV vf (flagOf drawn.2)).setDisp drawn.1).advance) ∨
    (n ≠ 0 ∧ 4096 < s.i.toNat + n.toNat ∧
      exec (.drwVxVyN x y n) s = .next (s.raise .memOutOfRange (firstOutOfRange s.i))) := by
  have zero : n = 0 ↔ n.toNat = 0 := by rw [← BitVec.toNat_inj]; rfl
  by_cases fits : n.toNat = 0 ∨ s.i.toNat + n.toNat ≤ 4096
  · refine .inl ⟨fits.imp_left zero.2, _, rfl, ?_⟩
    simp only [exec, execDrwVxVyN, State.readRange_eq_some fits]
  · have out : s.readRange s.i.toNat n.toNat = none := (State.readRange_eq_none ..).2 (by omega)
    refine .inr ⟨fun e => fits (.inl (zero.1 e)), by omega, ?_⟩
    simp only [exec, execDrwVxVyN, out]

/-- What the meaning of `Fx65` can do (45_index_memory.md R166). -/
theorem exec_ldVxMemI_cases (x : Nibble) :
    (s.i.toNat + x.toNat ≤ 4095 ∧ ∃ t : State, exec (.ldVxMemI x) s = .next t ∧
      t = { s with v := t.v, pc := s.pc + 2 } ∧
      ∀ k : Nibble, t.getV k = if k.toNat ≤ x.toNat then s.readMem (s.i.toNat + k.toNat) else s.getV k) ∨
    (4095 < s.i.toNat + x.toNat ∧
      exec (.ldVxMemI x) s = .next (s.raise .memOutOfRange (firstOutOfRange s.i))) := by
  by_cases fits : s.i.toNat + (x.toNat + 1) ≤ 4096
  · refine .inl ⟨by omega, ?_⟩
    let bytes := (List.range (x.toNat + 1)).map fun k => s.readMem (s.i.toNat + k)
    have read : s.readRange s.i.toNat (x.toNat + 1) = some bytes := State.readRange_eq_some (.inr fits)
    have length : bytes.length = x.toNat + 1 := by simp [bytes]
    refine Exists.intro (s.setVs 0 bytes).advance ⟨by simp only [exec, execLdVxMemI, read], ?_, fun k => ?_⟩
    · conv_lhs => rw [State.setVs_eq]
      rfl
    · change (s.setVs 0 bytes).getV k = _
      rw [State.getV_setVs s 0 bytes (by omega), if_pos (Nat.zero_le _), Nat.sub_zero]
      split
      · rw [List.getD_eq_getElem _ _ (by omega)]
        simp [bytes]
      · rw [List.getD_eq_default _ _ (by omega)]
  · have out : s.readRange s.i.toNat (x.toNat + 1) = none := (State.readRange_eq_none ..).2 (by omega)
    exact .inr ⟨by omega, by simp only [exec, execLdVxMemI, out]⟩

/-- An AwaitingKey step gives the first pressed key to the waiting register, or changes nothing (40_step_cycle.md
R82). -/
theorem State.awaitKey_cases :
    (s.keypad = 0 ∧ s.awaitKey = s) ∨
    ∃ k : Nat, k < 16 ∧ s.keypad.getLsbD k = true ∧ (∀ j < k, s.keypad.getLsbD j = false) ∧
      s.awaitKey = { s.setV s.wreg (BitVec.ofNat 8 k) with wait := false } := by
  unfold State.awaitKey
  cases first : s.firstKey with
  | none =>
    refine .inl ⟨?_, rfl⟩
    simp only [State.firstKey, State.keyDown, List.find?_eq_none, List.mem_range, Bool.not_eq_true] at first
    exact BitVec.eq_of_getLsbD_eq fun k hk => by simpa using first k hk
  | some k =>
    unfold State.firstKey State.keyDown at first
    rw [List.find?_range_eq_some] at first
    exact .inr ⟨k, by simpa using first.2.1, first.1, by simpa using first.2.2, rfl⟩

/-- The host's placement of a word: the state is Running and its next fetch is inside memory (log entry 17). -/
theorem State.placeWord_running (word : Word) :
    (s.placeWord word).mode = .running ∧ (s.placeWord word).pc.toNat ≤ 4094 := by
  refine ⟨rfl, ?_⟩
  unfold State.placeWord
  dsimp only
  split
  · decide
  · omega

end Sys2Proof.Machine
end

