-- ==== Sys2Proof/Laws/PerInstr.lean ====
section
/-! SUPPORT. Statements made per instruction: one lemma for each constructor of `Instr`. -/

/-- Family `EncodeRow`: the word of a well-formed instruction is selected by the instruction's own row of
30_encoding.md R64, and the word of an unknown one by no row (R66). -/
def Sys2Proof.Laws.EncodeRow.Statement (i : Sys2Proof.Instr) : Prop :=
  Sys2Proof.WellFormed i = true →
    match Sys2Proof.opcodeRows[i.row - 1]? with
    | some row => Sys2Proof.encode i &&& row.1 = row.2
    | none => Sys2Proof.isUnknownWord (Sys2Proof.encode i) = true

namespace Sys2Proof.Laws.EncodeRow

theorem cls : Statement .cls := fun _ => rfl
theorem ret : Statement .ret := fun _ => rfl
theorem jpNnn (nnn : Addr12) : Statement (.jpNnn nnn) := fun _ =>
  (and_maskClass _).trans (by simp only [encode, classOf_wordNNN]; rfl)
theorem callNnn (nnn : Addr12) : Statement (.callNnn nnn) := fun _ =>
  (and_maskClass _).trans (by simp only [encode, classOf_wordNNN]; rfl)
theorem seVxKk (x : Nibble) (kk : Byte) : Statement (.seVxKk x kk) := fun _ =>
  (and_maskClass _).trans (by simp only [encode, classOf_wordXKK]; rfl)
theorem sneVxKk (x : Nibble) (kk : Byte) : Statement (.sneVxKk x kk) := fun _ =>
  (and_maskClass _).trans (by simp only [encode, classOf_wordXKK]; rfl)
theorem seVxVy (x y : Nibble) : Statement (.seVxVy x y) := fun _ =>
  (and_maskClassLow _).trans (by simp only [encode, classOf_wordXYN, nOf_wordXYN]; rfl)
theorem ldVxKk (x : Nibble) (kk : Byte) : Statement (.ldVxKk x kk) := fun _ =>
  (and_maskClass _).trans (by simp only [encode, classOf_wordXKK]; rfl)
theorem addVxKk (x : Nibble) (kk : Byte) : Statement (.addVxKk x kk) := fun _ =>
  (and_maskClass _).trans (by simp only [encode, classOf_wordXKK]; rfl)
theorem ldVxVy (x y : Nibble) : Statement (.ldVxVy x y) := fun _ =>
  (and_maskClassLow _).trans (by simp only [encode, classOf_wordXYN, nOf_wordXYN]; rfl)
theorem orVxVy (x y : Nibble) : Statement (.orVxVy x y) := fun _ =>
  (and_maskClassLow _).trans (by simp only [encode, classOf_wordXYN, nOf_wordXYN]; rfl)
theorem andVxVy (x y : Nibble) : Statement (.andVxVy x y) := fun _ =>
  (and_maskClassLow _).trans (by simp only [encode, classOf_wordXYN, nOf_wordXYN]; rfl)
theorem xorVxVy (x y : Nibble) : Statement (.xorVxVy x y) := fun _ =>
  (and_maskClassLow _).trans (by simp only [encode, classOf_wordXYN, nOf_wordXYN]; rfl)
theorem addVxVy (x y : Nibble) : Statement (.addVxVy x y) := fun _ =>
  (and_maskClassLow _).trans (by simp only [encode, classOf_wordXYN, nOf_wordXYN]; rfl)
theorem subVxVy (x y : Nibble) : Statement (.subVxVy x y) := fun _ =>
  (and_maskClassLow _).trans (by simp only [encode, classOf_wordXYN, nOf_wordXYN]; rfl)
theorem shrVx (x y : Nibble) : Statement (.shrVx x y) := fun _ =>
  (and_maskClassLow _).trans (by simp only [encode, classOf_wordXYN, nOf_wordXYN]; rfl)
theorem subnVxVy (x y : Nibble) : Statement (.subnVxVy x y) := fun _ =>
  (and_maskClassLow _).trans (by simp only [encode, classOf_wordXYN, nOf_wordXYN]; rfl)
theorem shlVx (x y : Nibble) : Statement (.shlVx x y) := fun _ =>
  (and_maskClassLow _).trans (by simp only [encode, classOf_wordXYN, nOf_wordXYN]; rfl)
theorem sneVxVy (x y : Nibble) : Statement (.sneVxVy x y) := fun _ =>
  (and_maskClassLow _).trans (by simp only [encode, classOf_wordXYN, nOf_wordXYN]; rfl)
theorem ldINnn (nnn : Addr12) : Statement (.ldINnn nnn) := fun _ =>
  (and_maskClass _).trans (by simp only [encode, classOf_wordNNN]; rfl)
theorem jpV0Nnn (nnn : Addr12) : Statement (.jpV0Nnn nnn) := fun _ =>
  (and_maskClass _).trans (by simp only [encode, classOf_wordNNN]; rfl)
theorem rndVxKk (x : Nibble) (kk : Byte) : Statement (.rndVxKk x kk) := fun _ =>
  (and_maskClass _).trans (by simp only [encode, classOf_wordXKK]; rfl)
theorem drwVxVyN (x y n : Nibble) : Statement (.drwVxVyN x y n) := fun _ =>
  (and_maskClass _).trans (by simp only [encode, classOf_wordXYN]; rfl)
theorem skpVx (x : Nibble) : Statement (.skpVx x) := fun _ =>
  (and_maskClassByte _).trans (by simp only [encode, classOf_wordXKK, kkOf_wordXKK]; rfl)
theorem sknpVx (x : Nibble) : Statement (.sknpVx x) := fun _ =>
  (and_maskClassByte _).trans (by simp only [encode, classOf_wordXKK, kkOf_wordXKK]; rfl)
theorem ldVxDt (x : Nibble) : Statement (.ldVxDt x) := fun _ =>
  (and_maskClassByte _).trans (by simp only [encode, classOf_wordXKK, kkOf_wordXKK]; rfl)
theorem ldVxK (x : Nibble) : Statement (.ldVxK x) := fun _ =>
  (and_maskClassByte _).trans (by simp only [encode, classOf_wordXKK, kkOf_wordXKK]; rfl)
theorem ldDtVx (x : Nibble) : Statement (.ldDtVx x) := fun _ =>
  (and_maskClassByte _).trans (by simp only [encode, classOf_wordXKK, kkOf_wordXKK]; rfl)
theorem ldStVx (x : Nibble) : Statement (.ldStVx x) := fun _ =>
  (and_maskClassByte _).trans (by simp only [encode, classOf_wordXKK, kkOf_wordXKK]; rfl)
theorem addIVx (x : Nibble) : Statement (.addIVx x) := fun _ =>
  (and_maskClassByte _).trans (by simp only [encode, classOf_wordXKK, kkOf_wordXKK]; rfl)
theorem ldFVx (x : Nibble) : Statement (.ldFVx x) := fun _ =>
  (and_maskClassByte _).trans (by simp only [encode, classOf_wordXKK, kkOf_wordXKK]; rfl)
theorem ldBVx (x : Nibble) : Statement (.ldBVx x) := fun _ =>
  (and_maskClassByte _).trans (by simp only [encode, classOf_wordXKK, kkOf_wordXKK]; rfl)
theorem ldMemIVx (x : Nibble) : Statement (.ldMemIVx x) := fun _ =>
  (and_maskClassByte _).trans (by simp only [encode, classOf_wordXKK, kkOf_wordXKK]; rfl)
theorem ldVxMemI (x : Nibble) : Statement (.ldVxMemI x) := fun _ =>
  (and_maskClassByte _).trans (by simp only [encode, classOf_wordXKK, kkOf_wordXKK]; rfl)
theorem unknown (w : Word) : Statement (.unknown w) := fun h => h

end Sys2Proof.Laws.EncodeRow
end

