-- ==== Sys2Proof/Tests/Slice0.lean ====
section
/-! SUPPORT. The model's own tests: ill-formed terms, the decoding of words written out bit by bit from 30_encoding.md
R62 and R64, single steps whose results are those of 95_test_vectors.md (each test names its vector), and for every
statement with hypotheses a state that meets them. -/

namespace Sys2Proof.Tests

open Sys2Proof.Machine Sys2Proof.Safety

/-! ### Well-formedness -/

/-- The one check of `WellFormed`: the word of CLS is no unknown word. -/
theorem test_unknown_of_cls_is_ill_formed : WellFormed (.unknown 0x00E0) = false := by decide

/-- Nor is a word of class 8 with a selector of R64. -/
theorem test_unknown_of_shl_is_ill_formed : WellFormed (.unknown 0x8AFE) = false := by decide

theorem test_unknown_word_is_well_formed : WellFormed (.unknown 0x8AF8) = true := by decide

/-! ### Decoding: class, x, y, n or class, x, kk or class, nnn, from R62 and R64 -/

theorem test_decode_flow :
    decodeWord 0b0000000011100000#16 = .cls ∧ decodeWord 0b0000000011101110#16 = .ret ∧
    decodeWord 0b0001101010111100#16 = .jpNnn 0xABC ∧ decodeWord 0b0010111100000001#16 = .callNnn 0xF01 ∧
    decodeWord 0b1011001000000001#16 = .jpV0Nnn 0x201 := by decide

theorem test_decode_skips :
    decodeWord 0b0011101001000010#16 = .seVxKk 10 0x42 ∧ decodeWord 0b0100101001000010#16 = .sneVxKk 10 0x42 ∧
    decodeWord 0b0101000100100000#16 = .seVxVy 1 2 ∧ decodeWord 0b1001000100100000#16 = .sneVxVy 1 2 ∧
    decodeWord 0b1110010110011110#16 = .skpVx 5 ∧ decodeWord 0b1110010110100001#16 = .sknpVx 5 := by decide

theorem test_decode_immediates :
    decodeWord 0b0110101011111111#16 = .ldVxKk 10 0xFF ∧ decodeWord 0b0111101000000010#16 = .addVxKk 10 0x02 ∧
    decodeWord 0b1100000100001111#16 = .rndVxKk 1 0x0F ∧ decodeWord 0b1010001100000000#16 = .ldINnn 0x300 := by decide

theorem test_decode_class8_low :
    decodeWord 0b1000000100100000#16 = .ldVxVy 1 2 ∧ decodeWord 0b1000000100100001#16 = .orVxVy 1 2 ∧
    decodeWord 0b1000000100100010#16 = .andVxVy 1 2 ∧ decodeWord 0b1000000100100011#16 = .xorVxVy 1 2 ∧
    decodeWord 0b1000000100100100#16 = .addVxVy 1 2 := by decide

theorem test_decode_class8_high :
    decodeWord 0b1000000100100101#16 = .subVxVy 1 2 ∧ decodeWord 0b1000000100100110#16 = .shrVx 1 2 ∧
    decodeWord 0b1000000100100111#16 = .subnVxVy 1 2 ∧ decodeWord 0b1000000100101110#16 = .shlVx 1 2 := by decide

theorem test_decode_draw_and_timers :
    decodeWord 0b1101001101000101#16 = .drwVxVyN 3 4 5 ∧ decodeWord 0b1111000000000111#16 = .ldVxDt 0 ∧
    decodeWord 0b1111010100001010#16 = .ldVxK 5 ∧ decodeWord 0b1111101000010101#16 = .ldDtVx 10 ∧
    decodeWord 0b1111101000011000#16 = .ldStVx 10 := by decide

theorem test_decode_memory :
    decodeWord 0b1111000100011110#16 = .addIVx 1 ∧ decodeWord 0b1111010100101001#16 = .ldFVx 5 ∧
    decodeWord 0b1111000000110011#16 = .ldBVx 0 ∧ decodeWord 0b1111010101010101#16 = .ldMemIVx 5 ∧
    decodeWord 0b1111010101100101#16 = .ldVxMemI 5 := by decide

/-- 95_test_vectors.md ST2 to ST9: neighbours of instructions are unknown words. -/
theorem test_decode_unknown :
    decodeWord 0x0123#16 = .unknown 0x0123 ∧ decodeWord 0x00E1#16 = .unknown 0x00E1 ∧
    decodeWord 0x5121#16 = .unknown 0x5121 ∧ decodeWord 0x9121#16 = .unknown 0x9121 ∧
    decodeWord 0x8128#16 = .unknown 0x8128 ∧ decodeWord 0x812F#16 = .unknown 0x812F ∧
    decodeWord 0xE100#16 = .unknown 0xE100 ∧ decodeWord 0xF1FF#16 = .unknown 0xF1FF := by decide

/-- A list too short for a word is refused by name, and the high byte comes first (R67). -/
theorem test_decode_bytes :
    decode [0x12] = .error .truncated ∧ decode [0x1A, 0xBC, 0x55] = .ok (.jpNnn 0xABC, [0x55]) := ⟨rfl, rfl⟩

/-- The host's numbering of words: the low byte holds bits 7..0. -/
theorem test_decode_table_word : decodeTableWord 16 0x8124 = some (.addVxVy 1 2) := by decide

/-! ### Single steps -/

/-- Reset with registers set. -/
def withRegs (regs : List (Nibble × Byte)) : State := regs.foldl (fun s r => s.setV r.1 r.2) State.reset

/-- `s` with a word at its `PC` and the arguments of the next STEP. -/
def ready (s : State) (word : Word) (keypad : BitVec 16 := 0) (rnd : Byte := 0) : State :=
  { s with mem := s.mem.writeBytes s.pc.toNat [word.extractLsb' 8 8, word.extractLsb' 0 8], inputs := [⟨keypad, rnd⟩] }

/-- One STEP leaves a next state with the property. -/
def after (s : State) (p : State → Bool) : Bool :=
  match step s with
  | .next t => p t
  | .fault _ => false
  | .refused _ => false

/-- `s` with bytes in memory from an address on. -/
def poke (s : State) (a : Nat) (bytes : List Byte) : State := { s with mem := s.mem.writeBytes a bytes }

/-- `s` with the listed pixels lit. -/
def light (s : State) (pixels : List (Fin 64 × Fin 32)) : State :=
  { s with disp := pixels.foldl (fun d p => d.setPixel p.1 p.2 true) s.disp }

/-- The listed pixels are lit, and no other one in the columns and rows given. -/
def showsOnly (t : State) (cols : List (Fin 64)) (rows : List (Fin 32)) (pixels : List (Fin 64 × Fin 32)) : Bool :=
  cols.all fun c => rows.all fun r => t.disp.pixel c r == pixels.contains (c, r)

/-- ST1. -/
theorem test_unknown : after (ready State.reset 0x0000) (fun t => t.pc == 0x202 && t.fault == none) = true := by decide

/-- ST12. -/
theorem test_timers_count :
    after (ready { State.reset with dt := 255, st := 255 } 0x6000) (fun t => t.dt == 254 && t.st == 254 && t.tone) = true := by
  decide

/-- ST16. -/
theorem test_fetch_fault :
    after { State.reset with pc := 0xFFF, dt := 3, inputs := [⟨0, 0⟩] }
      (fun t => t.fault == some ⟨.fetchOutOfRange, 0xFFF, 0xFFF⟩ && t.pc == 0xFFF && t.dt == 2) = true := by decide

/-- ST17: an odd `PC`. -/
theorem test_fetch_odd :
    after { State.reset with pc := 0x201, mem := [(0x201, 0x6A), (0x202, 0x55)], inputs := [⟨0, 0⟩] }
      (fun t => t.getV 10 == 0x55 && t.pc == 0x203) = true := by decide

/-- ST18. -/
theorem test_faulted_step :
    after { State.reset with fault := some ⟨.memOutOfRange, 0x20E, 0x1000⟩, dt := 5, st := 5, inputs := [⟨0xFFFF, 0⟩] }
      (fun t => t.fault == some ⟨.memOutOfRange, 0x20E, 0x1000⟩ && t.dt == 5 && t.st == 5 && t.tone) = true := by decide

/-- KT20: of two pressed keys the lower one is taken; the timers stand still. -/
theorem test_awaiting_step :
    after { State.reset with wait := true, wreg := 5, dt := 1, inputs := [⟨0x8100, 0⟩] }
      (fun t => t.getV 5 == 0x08 && !t.wait && t.wreg == 5 && t.pc == 0x200 && t.dt == 1) = true := by decide

/-- KT19: without a key nothing changes. -/
theorem test_awaiting_no_key :
    after { State.reset with wait := true, wreg := 5, dt := 1, inputs := [⟨0, 0⟩] }
      (fun t => t.wait && t.dt == 1 && t.pc == 0x200) = true := by decide

/-- FL1. -/
theorem test_jp : after (ready State.reset 0x1ABC) (fun t => t.pc == 0x0ABC) = true := by decide

/-- FL5. -/
theorem test_call :
    after (ready { State.reset with sp := 15 } 0x2300)
      (fun t => t.stack[15] == 0x0202 && t.sp == 16 && t.pc == 0x0300) = true := by decide

/-- FL6. -/
theorem test_call_full :
    after (ready { State.reset with sp := 16 } 0x2300)
      (fun t => t.fault == some ⟨.stackOverflow, 0x200, 16⟩ && t.sp == 16 && t.pc == 0x200) = true := by decide

/-- E4. -/
theorem test_ret :
    after (ready { State.reset with sp := 5, stack := State.reset.stack.set 4 0x6666 } 0x00EE)
      (fun t => t.pc == 0x6666 && t.sp == 4 && t.stack[4] == 0x6666) = true := by decide

/-- FL8. -/
theorem test_ret_empty :
    after (ready State.reset 0x00EE) (fun t => t.fault == some ⟨.stackUnderflow, 0x200, 0⟩ && t.pc == 0x200) = true := by
  decide

/-- FL10. -/
theorem test_se_kk_equal : after (ready (withRegs [(10, 0x42)]) 0x3A42) (fun t => t.pc == 0x204) = true := by decide

/-- FL11. -/
theorem test_se_kk_other : after (ready (withRegs [(10, 0x43)]) 0x3A42) (fun t => t.pc == 0x202) = true := by decide

/-- FL12. -/
theorem test_sne_kk_equal : after (ready (withRegs [(10, 0x42)]) 0x4A42) (fun t => t.pc == 0x202) = true := by decide

/-- FL13. -/
theorem test_sne_kk_other : after (ready (withRegs [(10, 0x43)]) 0x4A42) (fun t => t.pc == 0x204) = true := by decide

/-- FL14. -/
theorem test_se_vy_equal : after (ready (withRegs [(1, 7), (2, 7)]) 0x5120) (fun t => t.pc == 0x204) = true := by decide

/-- FL15. -/
theorem test_se_vy_other : after (ready (withRegs [(1, 7), (2, 8)]) 0x5120) (fun t => t.pc == 0x202) = true := by decide

/-- FL17. -/
theorem test_sne_vy_equal : after (ready (withRegs [(1, 7), (2, 7)]) 0x9120) (fun t => t.pc == 0x202) = true := by decide

/-- FL18. -/
theorem test_sne_vy_other : after (ready (withRegs [(1, 7), (2, 8)]) 0x9120) (fun t => t.pc == 0x204) = true := by decide

/-- FL21. -/
theorem test_jp_v0 :
    after (ready (withRegs [(0, 0xFF)]) 0xBFFF) (fun t => t.pc == 0x10FE && t.fault == none) = true := by decide

/-- AL1. -/
theorem test_ld_kk :
    after (ready (withRegs [(10, 1), (15, 7)]) 0x6AFF) (fun t => t.getV 10 == 0xFF && t.getV 15 == 7) = true := by decide

/-- AL3. -/
theorem test_add_kk :
    after (ready (withRegs [(10, 0xFF), (15, 7)]) 0x7A02) (fun t => t.getV 10 == 0x01 && t.getV 15 == 7) = true := by
  decide

/-- AL6. -/
theorem test_ld_vy :
    after (ready (withRegs [(1, 1), (2, 0xAB), (15, 9)]) 0x8120)
      (fun t => t.getV 1 == 0xAB && t.getV 2 == 0xAB && t.getV 15 == 9) = true := by decide

/-- AL7. -/
theorem test_or :
    after (ready (withRegs [(1, 0xF0), (2, 0x3C), (15, 9)]) 0x8121) (fun t => t.getV 1 == 0xFC && t.getV 15 == 9) = true := by
  decide

/-- AL8. -/
theorem test_and :
    after (ready (withRegs [(1, 0xF0), (2, 0x3C), (15, 9)]) 0x8122) (fun t => t.getV 1 == 0x30 && t.getV 15 == 9) = true := by
  decide

/-- AL9. -/
theorem test_xor :
    after (ready (withRegs [(1, 0xF0), (2, 0x3C), (15, 9)]) 0x8123) (fun t => t.getV 1 == 0xCC && t.getV 15 == 9) = true := by
  decide

/-- AL12. -/
theorem test_add :
    after (ready (withRegs [(1, 0xFF), (2, 0xFF), (15, 9)]) 0x8124) (fun t => t.getV 1 == 0xFE && t.getV 15 == 1) = true := by
  decide

/-- AL18: the flag is written last. -/
theorem test_add_into_vf :
    after (ready (withRegs [(15, 0x10), (2, 0x20)]) 0x8F24) (fun t => t.getV 15 == 0 && t.getV 2 == 0x20) = true := by decide

/-- AL23: the tie. -/
theorem test_sub_tie :
    after (ready (withRegs [(1, 0x0F), (2, 0x0F), (15, 9)]) 0x8125) (fun t => t.getV 1 == 0 && t.getV 15 == 0) = true := by
  decide

/-- AL30: the difference is written last. -/
theorem test_sub_into_vf :
    after (ready (withRegs [(15, 5), (2, 3)]) 0x8F25) (fun t => t.getV 15 == 2 && t.getV 2 == 3) = true := by decide

/-- AL42: `y` is ignored. -/
theorem test_shr :
    after (ready (withRegs [(1, 3), (2, 0xAA), (15, 9)]) 0x8126)
      (fun t => t.getV 1 == 1 && t.getV 15 == 1 && t.getV 2 == 0xAA) = true := by decide

/-- AL45: a logical shift. -/
theorem test_shr_logical :
    after (ready (withRegs [(1, 0xFF)]) 0x8126) (fun t => t.getV 1 == 0x7F && t.getV 15 == 1) = true := by decide

/-- AL35. -/
theorem test_subn :
    after (ready (withRegs [(1, 0x0F), (2, 0x10)]) 0x8127)
      (fun t => t.getV 1 == 1 && t.getV 15 == 1 && t.getV 2 == 0x10) = true := by decide

/-- AL41: the old VF is the minuend. -/
theorem test_subn_from_vf :
    after (ready (withRegs [(1, 3), (15, 5)]) 0x81F7) (fun t => t.getV 1 == 2 && t.getV 15 == 1) = true := by decide

/-- AL51. -/
theorem test_shl :
    after (ready (withRegs [(1, 0x81), (2, 0xAA), (15, 9)]) 0x812E)
      (fun t => t.getV 1 == 2 && t.getV 15 == 1 && t.getV 2 == 0xAA) = true := by decide

/-- AL58: the shifted value is written last. -/
theorem test_shl_into_vf : after (ready (withRegs [(15, 0x41)]) 0x8F2E) (fun t => t.getV 15 == 0x82) = true := by decide

/-- AL59. -/
theorem test_rnd :
    after (ready (withRegs [(1, 0xEE), (15, 9)]) 0xC10F 0 0xA5) (fun t => t.getV 1 == 0x05 && t.getV 15 == 9) = true := by
  decide

/-- DR0. -/
theorem test_cls :
    after (ready (light (withRegs [(15, 9)]) [(0, 0), (63, 31)]) 0x00E0)
      (fun t => showsOnly t [0, 1, 63] [0, 30, 31] [] && t.displayChanged && t.getV 15 == 9 && t.pc == 0x202) = true := by
  decide

/-- DR17: wrap on both edges. -/
theorem test_drw_wraps :
    after (ready (poke { withRegs [(0, 63), (1, 31), (15, 9)] with i := 0x300 } 0x300 [0xC0, 0xC0]) 0xD012)
      (fun t => showsOnly t [62, 63, 0, 1] [30, 31, 0, 1] [(63, 31), (0, 31), (63, 0), (0, 0)] && t.getV 15 == 0 &&
        t.displayChanged) = true := by decide

/-- DR7: one colliding pixel. -/
theorem test_drw_collides :
    after (ready (poke (light { State.reset with i := 0x300 } [(3, 0)]) 0x300 [0xF0]) 0xD011)
      (fun t => showsOnly t [0, 1, 2, 3, 4] [0, 1] [(0, 0), (1, 0), (2, 0)] && t.getV 15 == 1) = true := by decide

/-- KT5. -/
theorem test_skp : after (ready (withRegs [(1, 15)]) 0xE19E 0x8000) (fun t => t.pc == 0x204) = true := by decide

/-- KT7. -/
theorem test_skp_index :
    after (ready (withRegs [(1, 0x10)]) 0xE19E 0xFFFF)
      (fun t => t.fault == some ⟨.keyIndexOutOfRange, 0x200, 0x10⟩ && t.pc == 0x200) = true := by decide

/-- KT3. -/
theorem test_sknp_down : after (ready (withRegs [(1, 4)]) 0xE1A1 0x0010) (fun t => t.pc == 0x202) = true := by decide

/-- KT4. -/
theorem test_sknp_up : after (ready (withRegs [(1, 4)]) 0xE1A1 0xFFEF) (fun t => t.pc == 0x204) = true := by decide

/-- KT10: the decremented value is read. -/
theorem test_ld_vx_dt :
    after (ready { withRegs [(0, 0xAA)] with dt := 3 } 0xF007) (fun t => t.dt == 2 && t.getV 0 == 2) = true := by decide

/-- KT18: the keypad is ignored by the initiating step. -/
theorem test_ld_vx_k :
    after (ready { withRegs [(5, 0xAA)] with dt := 2, st := 2 } 0xF50A 0xFFFF)
      (fun t => t.wait && t.wreg == 5 && t.pc == 0x202 && t.getV 5 == 0xAA && t.dt == 1 && t.tone) = true := by decide

/-- KT13. -/
theorem test_ld_dt_vx : after (ready { withRegs [(10, 5)] with dt := 9 } 0xFA15) (fun t => t.dt == 5) = true := by decide

/-- KT15. -/
theorem test_ld_st_vx : after (ready (withRegs [(10, 3)]) 0xFA18) (fun t => t.st == 3 && t.tone) = true := by decide

/-- IX2. -/
theorem test_ld_i : after (ready { State.reset with i := 0x1234 } 0xAFFF) (fun t => t.i == 0x0FFF) = true := by decide

/-- IX3. -/
theorem test_add_i :
    after (ready { withRegs [(1, 1), (15, 9)] with i := 0x0FFF } 0xF11E) (fun t => t.i == 0x1000 && t.getV 15 == 9) = true := by
  decide

/-- IX7. -/
theorem test_add_i_overflow :
    after (ready { withRegs [(1, 0xFF)] with i := 0xFF01 } 0xF11E)
      (fun t => t.fault == some ⟨.indexOverflow, 0x200, 0xFF01⟩ && t.i == 0xFF01) = true := by decide

/-- IX13. -/
theorem test_ld_f : after (ready (withRegs [(5, 0xFF)]) 0xF529) (fun t => t.i == 0x04FB) = true := by decide

/-- IX21. -/
theorem test_ld_b :
    after (ready { withRegs [(0, 123)] with i := 0xFFD } 0xF033)
      (fun t => (List.range 3).map (fun k => t.readMem (0xFFD + k)) == [1, 2, 3] && t.i == 0xFFD) = true := by decide

/-- IX22: nothing is written. -/
theorem test_ld_b_out :
    after (ready { withRegs [(0, 123)] with i := 0xFFE } 0xF033)
      (fun t => t.fault == some ⟨.memOutOfRange, 0x200, 0x1000⟩ && t.readMem 0xFFE == 0 && t.readMem 0xFFF == 0) = true := by
  decide

/-- IX26: only V0 is stored. -/
theorem test_dump :
    after (ready { withRegs [(0, 0x11), (1, 0x22)] with i := 0x300 } 0xF055)
      (fun t => t.readMem 0x300 == 0x11 && t.readMem 0x301 == 0 && t.i == 0x300) = true := by decide

/-- IX31. -/
theorem test_dump_out :
    after (ready { withRegs [(0, 0x11), (1, 0x22)] with i := 0xFFF } 0xF155)
      (fun t => t.fault == some ⟨.memOutOfRange, 0x200, 0x1000⟩ && t.readMem 0xFFF == 0) = true := by decide

/-- IX32. -/
theorem test_load :
    after (ready (poke { withRegs [(3, 0x77)] with i := 0x300 } 0x300 [2, 3, 4, 5]) 0xF265)
      (fun t => t.getV 0 == 2 && t.getV 1 == 3 && t.getV 2 == 4 && t.getV 3 == 0x77 && t.i == 0x300) = true := by decide

/-- IX36. -/
theorem test_load_out :
    after (ready { withRegs [(0, 7)] with i := 0x1000 } 0xF065)
      (fun t => t.fault == some ⟨.memOutOfRange, 0x200, 0x1000⟩ && t.getV 0 == 7) = true := by decide

/-- E2. -/
theorem test_load_image :
    (List.range 5).map (fun k => (State.reset.load [1, 2, 3]).readMem (0x1FF + k)) = [0, 1, 2, 3, 0] := by decide

/-- The default of the font's open parameter gives the table of R47: the reset state, and bytes 0 to 15 of IX33. -/
theorem test_reset_default_font :
    State.resetWith Config.defaultRows = State.reset ∧
    (List.range 16).map State.reset.readMem =
      [0xF0, 0x90, 0x90, 0x90, 0xF0] ++ [0x20, 0x60, 0x20, 0x20, 0x70] ++ [0xF0, 0x10, 0xF0, 0x80, 0xF0, 0xF0] := by decide

/-- RL1 with another value of the open parameter, rows all blank: INIT of a faulted machine copies that table. -/
theorem test_init_other_font :
    (List.range 4).map (fun k => ({ State.resetWith (Vector.replicate 70 0) with
      sp := 16, fault := some ⟨.stackOverflow, 0x200, 16⟩, mem := [(5, 0x33)] } : State).init.readMem (3 + k)) =
      [0x90, 0xF0, 0x00, 0x00] ∧
    (State.resetWith (Vector.replicate 70 0)).init.readMem 75 = 0xF0 := by decide

/-- The host's placement of a word runs it as the first instruction after reset. -/
theorem test_with_fetch_word :
    (State.reset.withFetchWord 16 0x1ABC).fetch = some 0x1ABC ∧ (State.reset.withFetchWord 16 0x1ABC).pc = 0x200 := by
  decide

/-! ### Witnesses: states and operands that meet the hypotheses of each statement

Each is named after the statement; where a statement has clauses over one input, each clause has its witness at a
boundary value. -/

theorem witness_DecodeOfEncode :
    WellFormed (.drwVxVyN 15 15 15) = true ∧ WellFormed (.jpNnn 0xFFF) = true ∧ WellFormed (.unknown 0xFFFF) = true := by
  decide

theorem witness_DecoderFollowsOpcodeMap :
    (decodeWord 0xFF65).row = 34 ∧ (0xFF65 : Word) &&& 0xF0FF = 0xF065 ∧ isUnknownWord 0xFF66 = true := by decide

/-- Running, and the two last bytes of memory hold JP 0xABC. -/
def runsAtTop : State := { State.reset with pc := 4094, mem := [(4094, 0x1A), (4095, 0xBC)] }

theorem witness_StepRunsDecodedInstruction :
    runsAtTop.fault = none ∧ runsAtTop.wait = false ∧ runsAtTop.pc.toNat ≤ 4094 ∧ WellFormed (.jpNnn 0xABC) = true ∧
    decode [runsAtTop.readMem runsAtTop.pc.toNat, runsAtTop.readMem (runsAtTop.pc.toNat + 1)] =
      .ok (.jpNnn 0xABC, []) := by decide

theorem witness_StepStartSamplesInputs :
    ({ State.reset with inputs := [⟨0x0090, 7⟩] } : State).inputs = (⟨0x0090, 7⟩ : StepInput) :: [] := by decide

/-- FAULTED, with a running timer and a key wait that the latch hides. -/
def faultedState : State :=
  { State.reset with fault := some ⟨.stackOverflow, 0x200, 16⟩, sp := 16, st := 5, inputs := [⟨0xFFFF, 0⟩] }

/-- AwaitingKey for V5, with the keypad the next STEP will see. -/
def awaiting (keypad : BitVec 16) : State := { State.reset with wait := true, wreg := 5, inputs := [⟨keypad, 0⟩] }

theorem witness_modes :
    State.reset.mode = .running ∧ (awaiting 0).mode = .awaitingKey ∧ faultedState.mode = .faulted := by decide

theorem witness_TimersCountRunningSteps :
    (ready State.reset 0xFA15).fetch = some 0xFA15 ∧ decodeWord 0xFA15 = .ldDtVx 10 ∧
    (ready State.reset 0xFA18).fetch = some 0xFA18 ∧ decodeWord 0xFA18 = .ldStVx 10 ∧
    (ready State.reset 0xF007).fetch = some 0xF007 ∧ decodeWord 0xF007 = .ldVxDt 0 := by decide

theorem witness_FaultedStepChangesNothing : faultedState.fault ≠ none := by decide

/-- No key; key 0 the least; key 15 the least. -/
theorem witness_AwaitingKeyTakesLowestKey :
    (awaiting 0).fault = none ∧ (awaiting 0).wait = true ∧ (awaiting 0).beginStep.keypad = 0 ∧
    (awaiting 0x8001).beginStep.keypad.getLsbD 0 = true ∧ (awaiting 0x8000).beginStep.keypad.getLsbD 15 = true ∧
    ∀ j : Nat, j < 15 → (awaiting 0x8000).beginStep.keypad.getLsbD j = false := by decide

theorem witness_UnknownWordAdvances :
    (ready State.reset 0x8128).mode = .running ∧ (ready State.reset 0x8128).fetch = some 0x8128 ∧
    isUnknownWord 0x8128 = true := by decide

theorem witness_FetchBeyondMemoryFaults :
    ({ State.reset with pc := 4095 } : State).mode = .running ∧ ({ State.reset with pc := 4095 } : State).pc.toNat > 4094 ∧
    ({ State.reset with pc := 0xFFFF } : State).pc.toNat > 4094 := by decide

theorem witness_CallPushesReturnAddress :
    ({ State.reset with sp := 15 } : State).sp.val < 16 ∧ State.reset.sp.val < 16 := by decide

theorem witness_ReturnJumpsToTopEntry :
    0 < ({ State.reset with sp := 16 } : State).sp.val ∧ 0 < ({ State.reset with sp := 1 } : State).sp.val := by decide

theorem witness_StackLimitsFault : ({ State.reset with sp := 16 } : State).sp.val = 16 ∧ State.reset.sp.val = 0 := by
  decide

theorem witness_CallThenReturnComesBack : ({ State.reset with sp := 15 } : State).sp.val < 16 := by decide

/-- `x` other than F, and `x = F`, with `y = F` too. -/
theorem witness_flag_aliasing : (14 : Nibble) ≠ vf ∧ ¬ (15 : Nibble) ≠ vf ∧ (3 : Nibble) ≠ 14 ∧ (3 : Nibble) ≠ vf := by
  decide

/-- The last sprite that fits, and a sprite of no rows at an address beyond memory. -/
theorem witness_DrawEqualsSpriteMask :
    (({ State.reset with i := 0xFF1 } : State).i.toNat + (15 : Nibble).toNat ≤ 4096) ∧
    ((0 : Nibble) = 0 ∨ ({ State.reset with i := 0xFFFF } : State).i.toNat + (0 : Nibble).toNat ≤ 4096) := by decide

theorem witness_DrawBeyondMemoryFaults :
    (15 : Nibble) ≠ 0 ∧ ({ State.reset with i := 0xFF2 } : State).i.toNat + (15 : Nibble).toNat > 4096 := by decide

theorem witness_DrawTwiceRestores :
    (0 : Nibble) ≠ vf ∧ (14 : Nibble) ≠ vf ∧ State.reset.i.toNat + (5 : Nibble).toNat ≤ 4096 ∧
    after (ready State.reset 0xD0E5) (fun t => t.getV 15 == 0) = true := by decide

theorem witness_KeySkips : ((withRegs [(1, 15)]).getV 1).toNat ≤ 15 := by decide

theorem witness_KeyIndexFaults : ((withRegs [(1, 16)]).getV 1).toNat > 15 := by decide

theorem witness_AddToIndex :
    ({ withRegs [(1, 0xFF)] with i := 0xFF00 } : State).i.toNat +
      (({ withRegs [(1, 0xFF)] with i := 0xFF00 } : State).getV 1).toNat ≤ 0xFFFF := by decide

theorem witness_IndexOverflowFaults :
    ({ withRegs [(1, 0xFF)] with i := 0xFF01 } : State).i.toNat +
      (({ withRegs [(1, 0xFF)] with i := 0xFF01 } : State).getV 1).toNat > 0xFFFF := by decide

/-- Reset with `I` set, whose memory is canonical. -/
def withI (i : Word) : State := { State.reset with i := i }

theorem withI_canonical (i : Word) : MemoryCanonical (withI i) := ⟨List.Pairwise.nil, fun _ h => nomatch h⟩

theorem witness_BcdStoresDigits :
    MemoryCanonical (withI 0xFFD) ∧ (withI 0xFFD).i.toNat + 2 ≤ 4095 ∧ ((0xFFC : Nat) < (withI 0xFFD).i.toNat ∨
      (withI 0xFFD).i.toNat + 2 < 0xFFC) ∧ (withI 0x300).i.toNat + 2 < 0x303 :=
  ⟨withI_canonical _, by decide⟩

theorem witness_RegisterDumpStores :
    MemoryCanonical (withI 0xFF0) ∧ (withI 0xFF0).i.toNat + (15 : Nibble).toNat ≤ 4095 ∧
      (15 : Nibble).toNat ≤ (15 : Nibble).toNat ∧ (0xFEF : Nat) < (withI 0xFF0).i.toNat :=
  ⟨withI_canonical _, by decide⟩

theorem witness_RegisterLoadReads :
    (withI 0xFFF).i.toNat + (0 : Nibble).toNat ≤ 4095 ∧ (0 : Nibble).toNat ≤ (0 : Nibble).toNat ∧
      (0 : Nibble).toNat < (1 : Nibble).toNat := by decide

theorem witness_DataBeyondMemoryFaults :
    (withI 0xFFE).i.toNat + 2 > 4095 ∧ (withI 0xFF1).i.toNat + (15 : Nibble).toNat > 4095 ∧
      (withI 0x1000).i.toNat + (0 : Nibble).toNat > 4095 := by decide

/-- A dump of V0 to V5 at 0x300, and the state from which the load goes on: other registers, the same memory and `I`. -/
theorem witness_DumpThenLoadRestores :
    MemoryCanonical (withI 0x300) ∧ (withI 0x300).i.toNat + (5 : Nibble).toNat ≤ 4095 ∧
      ∃ t u : State, exec (.ldMemIVx 5) (withI 0x300) = .next t ∧ u.mem = t.mem ∧ u.i = (withI 0x300).i ∧ u.v ≠ t.v :=
  ⟨withI_canonical _, by decide, _, ((withI 0x300).storeAtI ((withI 0x300).getVsUpTo 5)).setV 0 1, rfl, rfl, rfl, by
    decide⟩

/-- Bytes that fit, at the last address too, and bytes beyond it. -/
theorem witness_LoadCopiesAndTruncates :
    MemoryCanonical State.reset ∧ (0 : Nat) < (List.replicate 4000 (0xAB : Byte)).length ∧
      3583 < (List.replicate 4000 (0xAB : Byte)).length ∧ 0x200 + 3583 ≤ 4095 ∧ (0x1FF : Nat) < 0x200 ∧ 4095 < 4096 := by
  refine ⟨withI_canonical 0, ?_⟩
  simp only [List.length_replicate]
  decide

theorem witness_ResetValues : (79 : Nat) < (Config.fontTable Config.defaultRows).length ∧ (80 : Nat) ≤ 80 := by decide

/-- Each store has an instruction that changes it. -/
theorem witness_WritersOfEachStore :
    (∃ t : State, exec (.ldMemIVx 0) ((withI 0x300).setV 0 1) = .next t ∧ t.mem ≠ ((withI 0x300).setV 0 1).mem) ∧
    (∃ t : State, exec (.ldINnn 0x300) State.reset = .next t ∧ t.i ≠ State.reset.i) ∧
    (∃ t : State, exec (.ldVxK 5) State.reset = .next t ∧ t.wait ≠ State.reset.wait) ∧
    (∃ t : State, exec (.callNnn 0x300) State.reset = .next t ∧ t.stack ≠ State.reset.stack ∧ t.sp ≠ State.reset.sp) ∧
    ∃ t : State, exec (.ldVxKk 15 1) State.reset = .next t ∧ t.getV vf ≠ State.reset.getV vf := by
  refine ⟨⟨_, rfl, ?_⟩, ⟨_, rfl, ?_⟩, ⟨_, rfl, ?_⟩, ⟨_, rfl, ?_⟩, ⟨_, rfl, ?_⟩⟩ <;> decide

/-- The fault latch and `display_changed` change: a `RET` on an empty stack, after a step that drew. -/
theorem witness_WritersOfEachStore_fault :
    ∃ t : State, exec .ret { State.reset with displayChanged := true } = .next t ∧ t.fault ≠ State.reset.fault ∧
      t.displayChanged ≠ true := ⟨_, rfl, by decide, by decide⟩

/-- Each row of R171 that an instruction raises, at the boundary of its condition. -/
theorem witness_FaultsArePrecise :
    Raises (.drwVxVyN 0 0 15) (withI 0xFF2) .memOutOfRange 4096 ∧ Raises (.ldBVx 0) (withI 0xFFE) .memOutOfRange 4096 ∧
    Raises (.ldMemIVx 15) (withI 0xFF1) .memOutOfRange 4096 ∧ Raises (.ldVxMemI 0) (withI 0xFFFF) .memOutOfRange 0xFFFF ∧
    Raises (.callNnn 0) { State.reset with sp := 16 } .stackOverflow 16 ∧ Raises .ret State.reset .stackUnderflow 0 ∧
    Raises (.skpVx 1) (withRegs [(1, 16)]) .keyIndexOutOfRange 16 ∧
    Raises (.addIVx 1) { withRegs [(1, 0xFF)] with i := 0xFF01 } .indexOverflow 0xFF01 := by
  unfold Raises
  decide

/-- One below each boundary nothing is raised. -/
theorem witness_FaultsArePrecise_completes (cause : FaultCause) (info : Nat) :
    ¬ Raises (.drwVxVyN 0 0 15) (withI 0xFF1) cause info ∧ ¬ Raises (.ldBVx 0) (withI 0xFFD) cause info ∧
    ¬ Raises (.callNnn 0) { State.reset with sp := 15 } cause info := by
  refine ⟨fun h => absurd h.2.2.1 (by decide), fun h => absurd h.2.1 (by decide), fun h => absurd h.2.1 (by decide)⟩

/-- More stores that change: the display and the timers. -/
theorem witness_WritersOfEachStore_ports :
    (∃ t : State, exec .cls (light State.reset [(0, 0)]) = .next t ∧ t.disp ≠ (light State.reset [(0, 0)]).disp) ∧
    (∃ t : State, exec (.ldDtVx 0) (withRegs [(0, 1)]) = .next t ∧ t.dt ≠ (withRegs [(0, 1)]).dt) ∧
    ∃ t : State, exec (.ldStVx 0) (withRegs [(0, 1)]) = .next t ∧ t.st ≠ (withRegs [(0, 1)]).st := by
  refine ⟨⟨_, rfl, ?_⟩, ⟨_, rfl, ?_⟩, ⟨_, rfl, ?_⟩⟩ <;> decide

/-- An instruction that reads neither port, and one that reads each. -/
theorem witness_PortsReachOnlyTheirReaders :
    (∃ t : State, exec (.addVxVy 1 2) State.reset = .next t) ∧
    (∀ (x : Nibble) (kk : Byte), Instr.addVxVy 1 2 ≠ .rndVxKk x kk) ∧
    (∀ x : Nibble, Instr.rndVxKk 1 2 ≠ .skpVx x ∧ Instr.rndVxKk 1 2 ≠ .sknpVx x) :=
  ⟨⟨_, rfl⟩, fun _ _ h => Instr.noConfusion h, fun _ => ⟨fun h => Instr.noConfusion h, fun h => Instr.noConfusion h⟩⟩

theorem witness_FinishedIsAFixedPoint : Finished (ready { State.reset with pc := 0xFFE } 0x1FFE) := by
  unfold Finished
  decide

/-- A machine that jumps to itself, with the next inputs chosen. -/
def idle : State := { State.reset with mem := [(0x200, 0x12)], inputs := [⟨0, 0⟩] }

theorem idle_steps : ∃ t : State, step idle = .next t ∧ t.pc = 0x200 := ⟨_, rfl, by decide⟩

theorem witness_StepKeepsMemoryCanonical : MemoryCanonical idle ∧ ∃ t : State, step idle = .next t := by
  refine ⟨?_, _, rfl⟩
  unfold MemoryCanonical
  decide

/-- A latched record that fits, and a Running state. -/
theorem witness_StepKeepsFaultConsistent :
    FaultConsistent faultedState ∧ (∃ t : State, step faultedState = .next t) ∧ FaultConsistent idle := by
  refine ⟨fun r h => ?_, ⟨_, rfl⟩, fun r h => nomatch h⟩
  cases h
  exact ⟨⟨rfl, rfl, rfl⟩, rfl⟩

/-- The largest target of `Bnnn`, and a full stack of the largest return address. -/
theorem witness_StepKeepsAddressesBounded :
    AddressesBounded { State.reset with pc := 0x10FE, sp := 16, stack := Vector.replicate 16 4096, inputs := [⟨0, 0⟩] } ∧
    ∃ t : State, step { State.reset with pc := 0x10FE, sp := 16, stack := Vector.replicate 16 4096, inputs := [⟨0, 0⟩] } =
      .next t := by
  refine ⟨?_, _, rfl⟩
  unfold AddressesBounded
  decide

end Sys2Proof.Tests
end

/-! PROOFS. The timers across a STEP (40_step_cycle.md R83): what each instruction leaves in DT and ST, then the step
by kind. -/

namespace Sys2Proof.Machine

/-! ### The timers across the shared operations -/

section
variable (s : State)

@[simp] theorem State.skipIf_dt (c : Bool) : (s.skipIf c).dt = s.dt := by rw [State.skipIf_eq, State.jump_dt]

@[simp] theorem State.skipIf_st (c : Bool) : (s.skipIf c).st = s.st := by rw [State.skipIf_eq, State.jump_st]

theorem State.skipOnKey_timers (x : Nibble) (pressed : Bool) :
    (s.skipOnKey x pressed).dt = s.dt ∧ (s.skipOnKey x pressed).st = s.st := by
  obtain ⟨-, eq⟩ | ⟨-, eq⟩ := s.skipOnKey_cases x pressed <;> simp [eq]

theorem State.storeAtI_timers {bytes : List Byte} (nonempty : bytes ≠ []) :
    (s.storeAtI bytes).dt = s.dt ∧ (s.storeAtI bytes).st = s.st := by
  obtain ⟨-, eq⟩ | ⟨-, eq⟩ := s.storeAtI_cases bytes nonempty <;> simp [eq]

theorem State.awaitKey_timers : s.awaitKey.dt = s.dt ∧ s.awaitKey.st = s.st := by
  obtain ⟨-, eq⟩ | ⟨k, -, -, -, eq⟩ := s.awaitKey_cases <;> simp [eq]

theorem State.getVsUpTo_ne_nil (x : Nibble) : s.getVsUpTo x ≠ [] :=
  List.ne_nil_of_length_eq_add_one (s.length_getVsUpTo x)

end

/-! ### The timers across an instruction -/

/-- What `i` leaves in DT: `V[x]` for `LD DT, Vx`, and DT itself for every other instruction (44_keypad_timers.md
R154). -/
def dtAfter (i : Instr) (s : State) : Byte :=
  match i with
  | .ldDtVx x => s.getV x
  | _ => s.dt

/-- What `i` leaves in ST: `V[x]` for `LD ST, Vx`, and ST itself for every other instruction (44_keypad_timers.md
R155). -/
def stAfter (i : Instr) (s : State) : Byte :=
  match i with
  | .ldStVx x => s.getV x
  | _ => s.st

theorem dtAfter_of_ne {i : Instr} (h : ∀ x, i ≠ .ldDtVx x) (s : State) : dtAfter i s = s.dt := by
  unfold dtAfter
  split
  · next x => exact absurd rfl (h x)
  · rfl

theorem stAfter_of_ne {i : Instr} (h : ∀ x, i ≠ .ldStVx x) (s : State) : stAfter i s = s.st := by
  unfold stAfter
  split
  · next x => exact absurd rfl (h x)
  · rfl

/-- Every instruction answers a next state, faulting or not, and writes a timer only as `LD DT, Vx` or `LD ST, Vx`. -/
theorem exec_timers (i : Instr) (s : State) :
    ∃ t : State, exec i s = .next t ∧ t.dt = dtAfter i s ∧ t.st = stAfter i s := by
  cases i with
  | ret =>
    refine ⟨_, rfl, ?_⟩
    cases popped : s.pop with
    | none => exact ⟨rfl, rfl⟩
    | some top =>
      obtain ⟨frame, -⟩ := State.pop_eq_some popped
      exact ⟨(congrArg State.dt frame :), (congrArg State.st frame :)⟩
  | callNnn nnn =>
    refine ⟨_, rfl, ?_⟩
    cases pushed : s.push (s.pc + 2) with
    | none => exact ⟨rfl, rfl⟩
    | some s' =>
      obtain ⟨frame, -⟩ := State.push_eq_some pushed
      exact ⟨(congrArg State.dt frame :), (congrArg State.st frame :)⟩
  | seVxKk | sneVxKk | seVxVy | sneVxVy => exact ⟨_, rfl, s.skipIf_dt _, s.skipIf_st _⟩
  | skpVx | sknpVx => exact ⟨_, rfl, s.skipOnKey_timers _ _⟩
  | ldBVx => exact ⟨_, rfl, s.storeAtI_timers (List.cons_ne_nil _ _)⟩
  | ldMemIVx x => exact ⟨_, rfl, s.storeAtI_timers (s.getVsUpTo_ne_nil x)⟩
  | addIVx x =>
    refine ⟨_, rfl, ?_⟩
    split <;> exact ⟨rfl, rfl⟩
  | drwVxVyN x y n =>
    obtain ⟨-, drawn, -, eq⟩ | ⟨-, -, eq⟩ := exec_drwVxVyN_cases s x y n <;> exact ⟨_, eq, rfl, rfl⟩
  | ldVxMemI x =>
    obtain ⟨-, t, eq, frame, -⟩ | ⟨-, eq⟩ := exec_ldVxMemI_cases s x
    · exact ⟨t, eq, (congrArg State.dt frame :), (congrArg State.st frame :)⟩
    · exact ⟨_, eq, rfl, rfl⟩
  | _ => exact ⟨_, rfl, rfl, rfl⟩

/-- `LD Vx, DT` reads the delay timer as it stands when the instruction runs (44_keypad_timers.md R152). -/
theorem getV_of_exec_ldVxDt {s t : State} {x : Nibble} (h : exec (.ldVxDt x) s = .next t) : t.getV x = s.dt := by
  cases h
  rw [State.getV_advance, State.getV_setV_self]

/-! ### The timers across a step -/

theorem step_timers_of_not_running {s : State} (h : s.mode ≠ .running) :
    ∃ t : State, step s = .next t ∧ t.dt = s.dt ∧ t.st = s.st := by
  obtain ⟨-, eq⟩ | ⟨-, eq⟩ | ⟨running, -⟩ | ⟨w, running, -⟩ := step_cases s
  · exact ⟨_, eq, s.beginStep_dt, s.beginStep_st⟩
  · exact ⟨_, eq, by simp [State.awaitKey_timers]⟩
  · exact absurd running h
  · exact absurd running h

theorem step_timers_of_fetch_fault {s : State} (h : s.mode = .running) (f : s.fetch = none) :
    ∃ t : State, step s = .next t ∧ t.dt = countDown s.dt ∧ t.st = countDown s.st :=
  ⟨_, step_of_fetch_fault h f, by simp⟩

/-- In a Running step the instruction finds the timers counted. -/
theorem step_timers_of_fetch {s : State} {w : Word} (h : s.mode = .running) (f : s.fetch = some w) :
    ∃ t : State, step s = .next t ∧
      ((∀ x, decodeWord w ≠ .ldDtVx x) → t.dt = countDown s.dt) ∧
      ((∀ x, decodeWord w ≠ .ldStVx x) → t.st = countDown s.st) ∧
      ∀ x, (decodeWord w = .ldDtVx x → t.dt = s.getV x) ∧ (decodeWord w = .ldStVx x → t.st = s.getV x) ∧
        (decodeWord w = .ldVxDt x → t.getV x = countDown s.dt) := by
  obtain ⟨t, run, dt, st⟩ := exec_timers (decodeWord w) s.beginStep.tickTimers
  refine ⟨t, (step_of_running h f).trans run, fun other => ?_, fun other => ?_, fun x => ⟨fun e => ?_, fun e => ?_,
    fun e => ?_⟩⟩
  · simpa [dtAfter_of_ne other] using dt
  · simpa [stAfter_of_ne other] using st
  · simpa [e, dtAfter] using dt
  · simpa [e, stAfter] using st
  · rw [e] at run
    simpa using getV_of_exec_ldVxDt run

/-- Settles O8, by the kind of step and the fetch of a Running step: `exec_timers` says what the instruction leaves of
the counted timers. -/
theorem timersCountRunningSteps : Obligations.TimersCountRunningSteps := by
  unfold Obligations.TimersCountRunningSteps
  intro s
  by_cases running : s.mode = .running
  · cases f : s.fetch with
    | none =>
      obtain ⟨t, eq, dt, st⟩ := step_timers_of_fetch_fault running f
      refine ⟨t, eq, fun idle => absurd running idle, fun _ => ⟨fun _ => ?_, fun _ => ?_, fun w x fetched => ?_⟩⟩
      · rw [dt, toNat_countDown]
      · rw [st, toNat_countDown]
      · cases fetched
    | some w =>
      obtain ⟨t, eq, dt, st, timer⟩ := step_timers_of_fetch running f
      refine ⟨t, eq, fun idle => absurd running idle,
        fun _ => ⟨fun other => ?_, fun other => ?_, fun w' x fetched => ?_⟩⟩
      · rw [dt fun x => other w x rfl, toNat_countDown]
      · rw [st fun x => other w x rfl, toNat_countDown]
      · cases fetched
        obtain ⟨dtWritten, stWritten, dtRead⟩ := timer x
        exact ⟨dtWritten, stWritten, fun e => by rw [dtRead e, toNat_countDown]⟩
  · obtain ⟨t, eq, kept⟩ := step_timers_of_not_running running
    exact ⟨t, eq, fun _ => kept, fun h => absurd h running⟩

end Sys2Proof.Machine

/-! PROOFS. Control transfer (41_flow.md): the absolute jump (R102) and the four register skips (R104 to R107). -/

namespace Sys2Proof.Machine

open Sys2Proof.Safety

/-- Settles O16: the jump is to the operand as a 16-bit address. -/
theorem jumpIsAbsolute : Obligations.JumpIsAbsolute := by
  unfold Obligations.JumpIsAbsolute
  intro nnn s
  exact ⟨s.jump (addrOf nnn), rfl, rfl, toNat_addrOf nnn, sameMemory_of_mem_eq (s.jump_mem _)⟩

/-! ### The conditional skip on a comparison -/

@[simp] theorem State.skipIf_mem (s : State) (c : Bool) : (s.skipIf c).mem = s.mem := by
  rw [State.skipIf_eq, State.jump_mem]

theorem State.skipIf_sameMemory (s : State) (c : Bool) : SameMemory s (s.skipIf c) :=
  sameMemory_of_mem_eq (s.skipIf_mem c)

/-- Skip on equal: R104, R106. -/
theorem State.skipIf_beq (s : State) (a b : Byte) :
    s.skipIf (a == b) = { s with pc := if a = b then s.pc + 4 else s.pc + 2 } := by
  simp only [State.skipIf_eq, State.jump, beq_iff_eq]

/-- Skip on different: R105, R107. -/
theorem State.skipIf_bne (s : State) (a b : Byte) :
    s.skipIf (a != b) = { s with pc := if a = b then s.pc + 2 else s.pc + 4 } := by
  simp only [State.skipIf_eq, State.jump, bne_iff_ne, ite_not]

/-- Settles O22: each skip is `State.skipIf` on its comparison, with nothing but `PC` written. -/
theorem registerSkips : Obligations.RegisterSkips := by
  unfold Obligations.RegisterSkips
  refine ⟨fun x kk s => ?seVxKk, fun x kk s => ?sneVxKk, fun x y s => ?seVxVy, fun x y s => ?sneVxVy⟩
  case seVxKk => exact ⟨_, rfl, s.skipIf_beq (s.getV x) kk, s.skipIf_sameMemory _⟩
  case sneVxKk => exact ⟨_, rfl, s.skipIf_bne (s.getV x) kk, s.skipIf_sameMemory _⟩
  case seVxVy => exact ⟨_, rfl, s.skipIf_beq (s.getV x) (s.getV y), s.skipIf_sameMemory _⟩
  case sneVxVy => exact ⟨_, rfl, s.skipIf_bne (s.getV x) (s.getV y), s.skipIf_sameMemory _⟩

end Sys2Proof.Machine

/-! PROOFS. Display instructions (43_display.md): clearing the display (R140). -/

namespace Sys2Proof.Machine

open Sys2Proof.Safety

/-- Settles O30: the display becomes `Display.clear`, whose pixels are all off, and no update touches memory. -/
theorem clearDisplay : Obligations.ClearDisplay := by
  unfold Obligations.ClearDisplay
  intro s
  have memKept : (s.setDisp Display.clear).advance.mem = s.mem := by
    rw [State.advance_mem, State.setDisp_mem]
  have pixelsOff (c : Fin 64) (r : Fin 32) : (s.setDisp Display.clear).advance.disp.pixel c r = false := by
    rw [State.advance_disp, State.setDisp_disp, Display.pixel_clear]
  exact ⟨(s.setDisp Display.clear).advance, rfl, rfl, pixelsOff, sameMemory_of_mem_eq memKept⟩

end Sys2Proof.Machine

/-! PROOFS. Keypad and timer instructions (44_keypad_timers.md): the byte transfers between a register and the timers
(R152, R154, R155). -/

namespace Sys2Proof.Machine

open Sys2Proof.Safety

/-- The tone sounds while the sound timer runs: R88. -/
theorem State.tone_iff (s : State) : s.tone = true ↔ 0 < s.st.toNat := by
  have zero : (0 : Byte).toNat = 0 := rfl
  rw [State.tone, bne_iff_ne, ← BitVec.toNat_ne_iff_ne, zero, Nat.pos_iff_ne_zero]

/-- The frame of a write to one register, as the meanings that advance after it leave it. -/
theorem State.setV_advance_sameRegsBut (s : State) (x : Nibble) (b : Byte) : SameRegsBut x s (s.setV x b).advance :=
  fun r other => by rw [State.getV_advance, State.getV_setV_ne s b other]

/-- Settles O36: each transfer is one register or timer write and an advance, and neither touches memory. -/
theorem timerTransfers : Obligations.TimerTransfers := by
  unfold Obligations.TimerTransfers
  refine fun x s => ⟨⟨(s.setV x s.dt).advance, rfl, rfl, ?read, ?regsKept, ?readMem⟩,
    ⟨(s.setDt (s.getV x)).advance, rfl, rfl, ?dtMem⟩, ⟨(s.setSt (s.getV x)).advance, rfl, rfl, ?tone, ?stMem⟩⟩
  case read => exact getV_of_exec_ldVxDt rfl
  case regsKept => exact s.setV_advance_sameRegsBut x s.dt
  case readMem => exact sameMemory_of_mem_eq (by rw [State.advance_mem, State.setV_mem])
  case dtMem => exact sameMemory_of_mem_eq (by rw [State.advance_mem, State.setDt_mem])
  case tone => rw [State.tone_iff, State.advance_st, State.setSt_st]
  case stMem => exact sameMemory_of_mem_eq (by rw [State.advance_mem, State.setSt_mem])

end Sys2Proof.Machine

/-! PROOFS. Reset and loading (70_reset_and_hazards.md): the bytes a LOAD copies and those it drops (R192). -/

namespace Sys2Proof.Machine

open Sys2Proof.Safety

/-- A LOAD changes memory alone. -/
theorem State.load_frame (s : State) (bytes : List Byte) : s.load bytes = { s with mem := (s.load bytes).mem } := rfl

/-- Read after LOAD: 0x200 to 4095 is the range it can reach, and there an address past the last byte keeps its own. -/
theorem State.readMem_load {s : State} (canonical : MemoryCanonical s) (bytes : List Byte) (a : Nat) :
    (s.load bytes).readMem a =
      if 0x200 ≤ a ∧ a ≤ 4095 then bytes.getD (a - 0x200) (s.readMem a) else s.readMem a := by
  have written : (s.load bytes).readMem a =
      if 0x200 ≤ a then (bytes.take 3584).getD (a - 0x200) (s.readMem a) else s.readMem a :=
    Memory.read_writeBytes (Memory.wf_ordered canonical) 0x200 (bytes.take 3584) a
  rw [written, List.getD_eq_getElem?_getD, List.getD_eq_getElem?_getD, List.getElem?_take]
  by_cases below : a < 0x200
  · rw [if_neg (by omega), if_neg (by omega)]
  · by_cases fits : a ≤ 4095
    · rw [if_pos (by omega), if_pos (by omega), if_pos (by omega)]
    · rw [if_pos (by omega), if_neg (by omega), if_neg (by omega), Option.getD_none]

/-- Settles O49: `State.readMem_load` at a copied address, and at one below 0x200, past the last byte or past 4095. -/
theorem loadCopiesAndTruncates : Obligations.LoadCopiesAndTruncates := by
  unfold Obligations.LoadCopiesAndTruncates
  refine fun bytes s canonical => ⟨s.load_frame bytes, fun k inBytes fits => ?copied, fun a outside => ?kept⟩
  case copied =>
    rw [State.readMem_load canonical, if_pos (by omega), Nat.add_sub_cancel_left, List.getD_eq_getElem _ _ inBytes]
  case kept =>
    rw [State.readMem_load canonical]
    split
    · rw [List.getD_eq_default _ _ (by omega)]
    · rfl

end Sys2Proof.Machine

/-! PROOFS. The decoder and the encoder (30_encoding.md): each word is one well-formed instruction and back (R60, R62,
R66), and the decoder's cases are the rows of the opcode map (R64). -/

namespace Sys2Proof

/-- Settles O1: each word is evaluated. -/
theorem sampleWordsDecode : Obligations.SampleWordsDecode := by
  unfold Obligations.SampleWordsDecode
  decide

/-- Settles O2: the fields by `toNat_classOf` and its siblings, the byte order by `toNat_wordOfBytes`. -/
theorem fieldsAndByteOrder : Obligations.FieldsAndByteOrder := by
  unfold Obligations.FieldsAndByteOrder
  exact ⟨fun w => ⟨toNat_classOf w, toNat_xOf w, toNat_yOf w, toNat_nOf w, toNat_kkOf w, toNat_nnnOf w⟩,
    fun hi lo rest => ⟨wordOfBytes hi lo, toNat_wordOfBytes hi lo, rfl⟩⟩

/-! ### Encode of decode -/

section
variable {w : Word} {c : Nibble}

theorem wordNNN_of_class (h : classOf w = c) : wordNNN c (nnnOf w) = w := h ▸ wordNNN_fields w

theorem wordXKK_of_class (h : classOf w = c) : wordXKK c (xOf w) (kkOf w) = w := h ▸ wordXKK_fields w

theorem wordXKK_of_class_of_byte {k : Byte} (h : classOf w = c) (hk : kkOf w = k) : wordXKK c (xOf w) k = w :=
  hk ▸ wordXKK_of_class h

theorem wordXYN_of_class (h : classOf w = c) : wordXYN c (xOf w) (yOf w) (nOf w) = w := h ▸ wordXYN_fields w

theorem wordXYN_of_class_of_low {n : Nibble} (h : classOf w = c) (hn : nOf w = n) : wordXYN c (xOf w) (yOf w) n = w :=
  hn ▸ wordXYN_of_class h

/-- Outside class 0 a word is unknown iff no selector of its own class matches: CLS and RET are in class 0. -/
theorem ne_cls_and_ne_ret (h : classOf w ≠ 0x0#4) : w ≠ 0x00E0 ∧ w ≠ 0x00EE := by
  constructor <;> rintro rfl <;> exact h (by decide)

/-- What the decoder owes a word: a well-formed instruction of which it is the word. -/
def IsDecoding (w : Word) (i : Instr) : Prop := encode i = w ∧ WellFormed i = true

theorem isDecoding_unknown (h : isUnknownWord w = true) : IsDecoding w (.unknown w) := ⟨rfl, h⟩

theorem isDecoding_class0 (h : classOf w = 0x0#4) : IsDecoding w (decodeClass0 w) := by
  unfold decodeClass0
  split
  · next e => exact ⟨e.symm, rfl⟩
  · split
    · next e => exact ⟨e.symm, rfl⟩
    · exact isDecoding_unknown ((isUnknownWord_iff w).2 (by simp_all))

theorem isDecoding_class5 (h : classOf w = 0x5#4) : IsDecoding w (decodeClass5 w) := by
  unfold decodeClass5
  split
  · next low => exact ⟨wordXYN_of_class_of_low h low, rfl⟩
  · have := ne_cls_and_ne_ret (w := w) (by simp [h])
    exact isDecoding_unknown ((isUnknownWord_iff w).2 (by simp_all))

theorem isDecoding_class9 (h : classOf w = 0x9#4) : IsDecoding w (decodeClass9 w) := by
  unfold decodeClass9
  split
  · next low => exact ⟨wordXYN_of_class_of_low h low, rfl⟩
  · have := ne_cls_and_ne_ret (w := w) (by simp [h])
    exact isDecoding_unknown ((isUnknownWord_iff w).2 (by simp_all))

theorem isDecoding_classE (h : classOf w = 0xE#4) : IsDecoding w (decodeClassE w) := by
  unfold decodeClassE
  split
  · next byte => exact ⟨wordXKK_of_class_of_byte h byte, rfl⟩
  · split
    · next byte => exact ⟨wordXKK_of_class_of_byte h byte, rfl⟩
    · have := ne_cls_and_ne_ret (w := w) (by simp [h])
      exact isDecoding_unknown ((isUnknownWord_iff w).2 (by simp_all))

theorem isDecoding_class8 (h : classOf w = 0x8#4) : IsDecoding w (decodeClass8 w) := by
  unfold decodeClass8
  split
  iterate 9
    · next low => exact ⟨wordXYN_of_class_of_low h low, rfl⟩
  · have := ne_cls_and_ne_ret (w := w) (by simp [h])
    exact isDecoding_unknown ((isUnknownWord_iff w).2 (by simp_all))

theorem isDecoding_classF (h : classOf w = 0xF#4) : IsDecoding w (decodeClassF w) := by
  unfold decodeClassF
  split
  iterate 9
    · next byte => exact ⟨wordXKK_of_class_of_byte h byte, rfl⟩
  · have := ne_cls_and_ne_ret (w := w) (by simp [h])
    exact isDecoding_unknown ((isUnknownWord_iff w).2 (by simp_all))

end

/-- The decoder's answer, class by class. -/
theorem isDecoding_decodeWord (w : Word) : IsDecoding w (decodeWord w) := by
  unfold decodeWord
  split
  · next h => exact isDecoding_class0 h
  · next h => exact ⟨wordNNN_of_class h, rfl⟩
  · next h => exact ⟨wordNNN_of_class h, rfl⟩
  · next h => exact ⟨wordXKK_of_class h, rfl⟩
  · next h => exact ⟨wordXKK_of_class h, rfl⟩
  · next h => exact isDecoding_class5 h
  · next h => exact ⟨wordXKK_of_class h, rfl⟩
  · next h => exact ⟨wordXKK_of_class h, rfl⟩
  · next h => exact isDecoding_class8 h
  · next h => exact isDecoding_class9 h
  · next h => exact ⟨wordNNN_of_class h, rfl⟩
  · next h => exact ⟨wordNNN_of_class h, rfl⟩
  · next h => exact ⟨wordXKK_of_class h, rfl⟩
  · next h => exact ⟨wordXYN_of_class h, rfl⟩
  · next h => exact isDecoding_classE h
  · next h => exact isDecoding_classF h
  · have := nibble_cases (classOf w)
    simp_all

/-- Settles O4. -/
theorem encodeOfDecode : Obligations.EncodeOfDecode := by
  unfold Obligations.EncodeOfDecode
  exact isDecoding_decodeWord

/-! ### The decoder's cases are the rows of the map -/

/-- The word of a well-formed instruction is selected by the instruction's own row of R64: the family `EncodeRow`. -/
theorem encode_selects_row : ∀ i : Instr, Laws.EncodeRow.Statement i
  | .cls => Laws.EncodeRow.cls
  | .ret => Laws.EncodeRow.ret
  | .jpNnn nnn => Laws.EncodeRow.jpNnn nnn
  | .callNnn nnn => Laws.EncodeRow.callNnn nnn
  | .seVxKk x kk => Laws.EncodeRow.seVxKk x kk
  | .sneVxKk x kk => Laws.EncodeRow.sneVxKk x kk
  | .seVxVy x y => Laws.EncodeRow.seVxVy x y
  | .ldVxKk x kk => Laws.EncodeRow.ldVxKk x kk
  | .addVxKk x kk => Laws.EncodeRow.addVxKk x kk
  | .ldVxVy x y => Laws.EncodeRow.ldVxVy x y
  | .orVxVy x y => Laws.EncodeRow.orVxVy x y
  | .andVxVy x y => Laws.EncodeRow.andVxVy x y
  | .xorVxVy x y => Laws.EncodeRow.xorVxVy x y
  | .addVxVy x y => Laws.EncodeRow.addVxVy x y
  | .subVxVy x y => Laws.EncodeRow.subVxVy x y
  | .shrVx x y => Laws.EncodeRow.shrVx x y
  | .subnVxVy x y => Laws.EncodeRow.subnVxVy x y
  | .shlVx x y => Laws.EncodeRow.shlVx x y
  | .sneVxVy x y => Laws.EncodeRow.sneVxVy x y
  | .ldINnn nnn => Laws.EncodeRow.ldINnn nnn
  | .jpV0Nnn nnn => Laws.EncodeRow.jpV0Nnn nnn
  | .rndVxKk x kk => Laws.EncodeRow.rndVxKk x kk
  | .drwVxVyN x y n => Laws.EncodeRow.drwVxVyN x y n
  | .skpVx x => Laws.EncodeRow.skpVx x
  | .sknpVx x => Laws.EncodeRow.sknpVx x
  | .ldVxDt x => Laws.EncodeRow.ldVxDt x
  | .ldVxK x => Laws.EncodeRow.ldVxK x
  | .ldDtVx x => Laws.EncodeRow.ldDtVx x
  | .ldStVx x => Laws.EncodeRow.ldStVx x
  | .addIVx x => Laws.EncodeRow.addIVx x
  | .ldFVx x => Laws.EncodeRow.ldFVx x
  | .ldBVx x => Laws.EncodeRow.ldBVx x
  | .ldMemIVx x => Laws.EncodeRow.ldMemIVx x
  | .ldVxMemI x => Laws.EncodeRow.ldVxMemI x
  | .unknown w => Laws.EncodeRow.unknown w

theorem isUnknownWord_iff_no_row (w : Word) :
    isUnknownWord w = true ↔ ∀ (k : Nat) (h : k < opcodeRows.length), w &&& opcodeRows[k].1 ≠ opcodeRows[k].2 := by
  simp only [isUnknownWord, List.all_eq_true, bne_iff_ne, List.forall_mem_iff_forall_getElem]

/-- Two masked values of one word agree where both masks compare. -/
theorem xor_masked_eq_zero (w m n : Word) : m &&& n &&& ((w &&& m) ^^^ (w &&& n)) = 0 := by
  refine BitVec.eq_of_getLsbD_eq fun b _ => ?_
  simp only [BitVec.getLsbD_and, BitVec.getLsbD_xor]
  cases m.getLsbD b <;> cases n.getLsbD b <;> simp

/-- No two rows select one word: they differ in a bit both compare. -/
theorem selecting_row_unique {w : Word} {j k : Nat} (hj : j < opcodeRows.length) (hk : k < opcodeRows.length)
    (ej : w &&& opcodeRows[j].1 = opcodeRows[j].2) (ek : w &&& opcodeRows[k].1 = opcodeRows[k].2) : j = k := by
  have agree {a b : Word × Word} (ha : w &&& a.1 = a.2) (hb : w &&& b.1 = b.2) : a.1 &&& b.1 &&& (a.2 ^^^ b.2) = 0 :=
    ha ▸ hb ▸ xor_masked_eq_zero w a.1 b.1
  have apart {a b : Nat} (ha : a < opcodeRows.length) (hb : b < opcodeRows.length) (lt : a < b) :=
    List.pairwise_iff_getElem.1 opcodeRows_disjoint a b ha hb lt
  rcases Nat.lt_trichotomy j k with lt | eq | gt
  · exact absurd (agree ej ek) (apart hj hk lt)
  · exact eq
  · exact absurd (agree ek ej) (apart hk hj gt)

/-- Each of the constructors but the last has a row of R64. -/
theorem Instr.row_cases (i : Instr) : (∃ k, k < opcodeRows.length ∧ i.row = k + 1) ∨ ∃ w, i = .unknown w := by
  have rows : opcodeRows.length = 34 := rfl
  have bounds : (0 < i.row ∧ i.row ≤ 34) ∨ ∃ w, i = .unknown w := by cases i <;> simp [Instr.row]
  exact bounds.imp_left fun ⟨pos, le⟩ => ⟨i.row - 1, by omega, by omega⟩

/-- The decoder on a word: the instruction of the row that selects it, or the unknown word where no row does. -/
theorem decodeWord_cases (w : Word) :
    (∃ (k : Nat) (h : k < opcodeRows.length), (decodeWord w).row = k + 1 ∧ w &&& opcodeRows[k].1 = opcodeRows[k].2) ∨
    (decodeWord w = .unknown w ∧ isUnknownWord w = true) := by
  obtain ⟨word, wellFormed⟩ := isDecoding_decodeWord w
  obtain ⟨k, hk, row⟩ | ⟨w', unknown⟩ := (decodeWord w).row_cases
  · have selects := encode_selects_row (decodeWord w) wellFormed
    rw [row, word, Nat.add_sub_cancel, List.getElem?_eq_getElem hk] at selects
    exact .inl ⟨k, hk, row, selects⟩
  · rw [unknown] at word wellFormed
    cases word
    exact .inr ⟨unknown, wellFormed⟩

theorem decodeWord_of_isUnknownWord {w : Word} (h : isUnknownWord w = true) : decodeWord w = .unknown w := by
  obtain ⟨k, hk, -, selects⟩ | ⟨unknown, -⟩ := decodeWord_cases w
  · exact absurd selects ((isUnknownWord_iff_no_row w).1 h k hk)
  · exact unknown

/-- Settles O5: `decodeWord_cases` gives one row that fits, and `selecting_row_unique` excludes the others. -/
theorem decoderFollowsOpcodeMap : Obligations.DecoderFollowsOpcodeMap := by
  unfold Obligations.DecoderFollowsOpcodeMap
  intro w
  obtain ⟨k, hk, row, selects⟩ | ⟨unknown, noRow⟩ := decodeWord_cases w
  · have rows : opcodeRows.length = 34 := rfl
    refine ⟨fun j hj => ⟨fun e => ?_, fun e => ?_⟩, fun e => by omega, fun e => ?_⟩
    · obtain rfl : j = k := by omega
      exact selects
    · rw [row, selecting_row_unique hj hk e selects]
    · exact absurd selects ((isUnknownWord_iff_no_row w).1 e k hk)
  · have row : (decodeWord w).row = 35 := by rw [unknown]; rfl
    refine ⟨fun j hj => ⟨fun e => ?_, fun e => ?_⟩, fun _ => noRow, fun _ => row⟩
    · have rows : opcodeRows.length = 34 := rfl
      omega
    · exact absurd e ((isUnknownWord_iff_no_row w).1 noRow j hj)

/-! ### Decode of encode -/

/-- The word of a well-formed instruction decodes to it: the class and the selector fields of a built word are those the
encoder wrote, and its operand fields are the operands. -/
theorem decodeWord_encode {i : Instr} (h : WellFormed i = true) : decodeWord (encode i) = i := by
  cases i with
  | unknown w => exact decodeWord_of_isUnknownWord h
  | cls | ret => rfl
  | jpNnn | callNnn | ldINnn | jpV0Nnn =>
    simp only [encode, decodeWord, classOf_wordNNN, nnnOf_wordNNN]
    rfl
  | seVxKk | sneVxKk | ldVxKk | addVxKk | rndVxKk =>
    simp only [encode, decodeWord, classOf_wordXKK, xOf_wordXKK, kkOf_wordXKK]
    rfl
  | drwVxVyN =>
    simp only [encode, decodeWord, classOf_wordXYN, xOf_wordXYN, yOf_wordXYN, nOf_wordXYN]
    rfl
  | seVxVy | sneVxVy =>
    simp only [encode, decodeWord, decodeClass5, decodeClass9, classOf_wordXYN, xOf_wordXYN, yOf_wordXYN, nOf_wordXYN]
    rfl
  | ldVxVy | orVxVy | andVxVy | xorVxVy | addVxVy | subVxVy | shrVx | subnVxVy | shlVx =>
    simp only [encode, decodeWord, decodeClass8, classOf_wordXYN, xOf_wordXYN, yOf_wordXYN, nOf_wordXYN]
    rfl
  | skpVx | sknpVx =>
    simp only [encode, decodeWord, decodeClassE, classOf_wordXKK, xOf_wordXKK, kkOf_wordXKK]
    rfl
  | ldVxDt | ldVxK | ldDtVx | ldStVx | addIVx | ldFVx | ldBVx | ldMemIVx | ldVxMemI =>
    simp only [encode, decodeWord, decodeClassF, classOf_wordXKK, xOf_wordXKK, kkOf_wordXKK]
    rfl

/-- Settles O3: `decodeWord_encode`, and the two bytes put together again give the word. -/
theorem decodeOfEncode : Obligations.DecodeOfEncode := by
  unfold Obligations.DecodeOfEncode
  intro i h
  refine ⟨decodeWord_encode h, fun rest => ?_⟩
  have joined : decode (encodeBytes i ++ rest) =
      .ok (decodeWord (wordOfBytes ((encode i).extractLsb' 8 8) ((encode i).extractLsb' 0 8)), rest) := rfl
  rw [joined, wordOfBytes_bytes, decodeWord_encode h]

end Sys2Proof

/-! PROOFS. What an instruction may write (10_state.md R26): each update of the state keeps within the stores of an
instruction that is allowed that update, so the meaning of an instruction, a composition of updates, does too. -/

namespace Sys2Proof.Machine

open Sys2Proof.Safety

/-- `t` differs from `s` only in `PC` and in stores that `i`, executed in `s`, may write. -/
structure WritesOnly (i : Instr) (s t : State) : Prop where
  regs : ∀ r : Nibble, t.getV r ≠ s.getV r → WritesReg i r
  mem : t.mem ≠ s.mem → ∃ x : Nibble, i = .ldBVx x ∨ i = .ldMemIVx x
  disp : t.disp ≠ s.disp → i = .cls ∨ ∃ x y n : Nibble, i = .drwVxVyN x y n
  stack : t.stack ≠ s.stack → ∃ nnn : Addr12, i = .callNnn nnn
  sp : t.sp ≠ s.sp → i = .ret ∨ ∃ nnn : Addr12, i = .callNnn nnn
  dt : t.dt ≠ s.dt → ∃ x : Nibble, i = .ldDtVx x
  st : t.st ≠ s.st → ∃ x : Nibble, i = .ldStVx x
  index : t.i ≠ s.i → (∃ nnn : Addr12, i = .ldINnn nnn) ∨ ∃ x : Nibble, i = .addIVx x ∨ i = .ldFVx x
  keyWait : t.wait ≠ s.wait ∨ t.wreg ≠ s.wreg → ∃ x : Nibble, i = .ldVxK x
  fault : t.fault ≠ s.fault → ∃ (cause : FaultCause) (info : Nat), Raises i s cause info
  changed : t.displayChanged ≠ s.displayChanged → i = .cls ∨ (∃ x y n : Nibble, i = .drwVxVyN x y n) ∨
    ∃ (cause : FaultCause) (info : Nat), Raises i s cause info
  keypad : t.keypad = s.keypad
  rnd : t.rnd = s.rnd
  font : t.font = s.font
  inputs : t.inputs = s.inputs
  tick : t.tick = s.tick

namespace WritesOnly

theorem refl (i : Instr) (s : State) : WritesOnly i s s := by
  constructor <;> simp

variable {i : Instr} {s t : State}

theorem jump (h : WritesOnly i s t) (a : Word) : WritesOnly i s (t.jump a) := { h with }

theorem setV (h : WritesOnly i s t) {r : Nibble} (b : Byte) (allowed : WritesReg i r) : WritesOnly i s (t.setV r b) :=
  { h with
    regs := fun q differs => by
      by_cases e : q = r
      · exact e ▸ allowed
      · exact h.regs q (by rwa [State.getV_setV_ne t b e] at differs) }

theorem setI (h : WritesOnly i s t) (a : Word)
    (allowed : (∃ nnn : Addr12, i = .ldINnn nnn) ∨ ∃ x : Nibble, i = .addIVx x ∨ i = .ldFVx x) :
    WritesOnly i s (t.setI a) := { h with index := fun _ => allowed }

theorem setDt (h : WritesOnly i s t) (b : Byte) (allowed : ∃ x : Nibble, i = .ldDtVx x) :
    WritesOnly i s (t.setDt b) := { h with dt := fun _ => allowed }

theorem setSt (h : WritesOnly i s t) (b : Byte) (allowed : ∃ x : Nibble, i = .ldStVx x) :
    WritesOnly i s (t.setSt b) := { h with st := fun _ => allowed }

theorem startWait (h : WritesOnly i s t) (x : Nibble) (allowed : ∃ x : Nibble, i = .ldVxK x) :
    WritesOnly i s (t.startWait x) := { h with keyWait := fun _ => allowed }

theorem setDisp (h : WritesOnly i s t) (d : Display) (allowed : i = .cls ∨ ∃ x y n : Nibble, i = .drwVxVyN x y n) :
    WritesOnly i s (t.setDisp d) :=
  { h with disp := fun _ => allowed, changed := fun _ => allowed.imp_right .inl }

theorem setMem (h : WritesOnly i s t) (m : Memory) (allowed : ∃ x : Nibble, i = .ldBVx x ∨ i = .ldMemIVx x) :
    WritesOnly i s { t with mem := m } := { h with mem := fun _ => allowed }

theorem raise (h : WritesOnly i s t) {cause : FaultCause} {info : Nat} (a : Word) (allowed : Raises i s cause info) :
    WritesOnly i s (t.raise cause a) :=
  { h with fault := fun _ => ⟨cause, info, allowed⟩, changed := fun _ => .inr (.inr ⟨cause, info, allowed⟩) }

theorem pushed {nnn : Addr12} {a : Word} (push : s.push a = some t) : WritesOnly (.callNnn nnn) s t := by
  obtain ⟨frame, -⟩ := State.push_eq_some push
  rw [frame]
  exact { refl _ s with stack := fun _ => ⟨nnn, rfl⟩, sp := fun _ => .inr ⟨nnn, rfl⟩ }

theorem popped {a : Word} (pop : s.pop = some (a, t)) : WritesOnly .ret s t := by
  obtain ⟨frame, -⟩ := State.pop_eq_some pop
  rw [frame]
  exact { refl _ s with sp := fun _ => .inl rfl }

end WritesOnly

theorem State.storeAtI_writesOnly {i : Instr} {s : State} {bytes : List Byte} {info : Nat} (nonempty : bytes ≠ [])
    (allowed : ∃ x : Nibble, i = .ldBVx x ∨ i = .ldMemIVx x)
    (raises : 4096 < s.i.toNat + bytes.length → Raises i s .memOutOfRange info) :
    WritesOnly i s (s.storeAtI bytes) := by
  obtain ⟨-, eq⟩ | ⟨out, eq⟩ := s.storeAtI_cases bytes nonempty <;> rw [eq]
  · exact ((WritesOnly.refl i s).setMem (s.mem.writeBytes s.i.toNat bytes) allowed).jump (s.pc + 2)
  · exact (WritesOnly.refl i s).raise _ (raises out)

theorem State.skipOnKey_writesOnly {i : Instr} {s : State} {x : Nibble} (pressed : Bool)
    (raises : 15 < (s.getV x).toNat → Raises i s .keyIndexOutOfRange (s.getV x).toNat) :
    WritesOnly i s (s.skipOnKey x pressed) := by
  obtain ⟨out, eq⟩ | ⟨-, eq⟩ := s.skipOnKey_cases x pressed <;> rw [eq]
  · exact (WritesOnly.refl i s).raise _ (raises out)
  · exact (WritesOnly.refl i s).jump _

theorem State.skipIf_writesOnly (i : Instr) (s : State) (c : Bool) : WritesOnly i s (s.skipIf c) :=
  s.skipIf_eq c ▸ (WritesOnly.refl i s).jump _

/-- Every instruction answers a next state, and writes only its own stores. -/
theorem exec_writesOnly (i : Instr) (s : State) : ∃ t : State, exec i s = .next t ∧ WritesOnly i s t := by
  have start := WritesOnly.refl i s
  cases i with
  | cls => exact ⟨_, rfl, (start.setDisp _ (.inl rfl)).jump _⟩
  | ret =>
    refine ⟨_, rfl, ?_⟩
    cases pop : s.pop with
    | none => exact start.raise _ ⟨rfl, s.pop_eq_none.1 pop, rfl⟩
    | some top => exact (WritesOnly.popped pop).jump _
  | callNnn nnn =>
    refine ⟨_, rfl, ?_⟩
    cases push : s.push (s.pc + 2) with
    | none => exact start.raise _ ⟨rfl, (s.push_eq_none _).1 push, rfl⟩
    | some s' => exact (WritesOnly.pushed push).jump _
  | jpNnn | jpV0Nnn | unknown => exact ⟨_, rfl, start.jump _⟩
  | seVxKk | sneVxKk | seVxVy | sneVxVy => exact ⟨_, rfl, s.skipIf_writesOnly _ _⟩
  | ldVxKk | addVxKk | ldVxVy | orVxVy | andVxVy | xorVxVy | rndVxKk | ldVxDt =>
    exact ⟨_, rfl, (start.setV _ rfl).jump _⟩
  | addVxVy => exact ⟨_, rfl, ((start.setV _ (.inl rfl)).setV _ (.inr rfl)).jump _⟩
  | subVxVy | shrVx | subnVxVy | shlVx => exact ⟨_, rfl, ((start.setV _ (.inr rfl)).setV _ (.inl rfl)).jump _⟩
  | ldINnn nnn => exact ⟨_, rfl, (start.setI _ (.inl ⟨nnn, rfl⟩)).jump _⟩
  | ldFVx x => exact ⟨_, rfl, (start.setI _ (.inr ⟨x, .inr rfl⟩)).jump _⟩
  | addIVx x =>
    refine ⟨_, rfl, ?_⟩
    split
    · next overflow => exact start.raise _ ⟨rfl, overflow, rfl⟩
    · exact (start.setI _ (.inr ⟨x, .inl rfl⟩)).jump _
  | drwVxVyN x y n =>
    obtain ⟨-, drawn, -, eq⟩ | ⟨rows, out, eq⟩ := exec_drwVxVyN_cases s x y n
    · exact ⟨_, eq, ((start.setV _ rfl).setDisp _ (.inr ⟨x, y, n, rfl⟩)).jump _⟩
    · exact ⟨_, eq, start.raise _ ⟨rfl, BitVec.toNat_pos_of_ne_zero rows, out, rfl⟩⟩
  | skpVx | sknpVx => exact ⟨_, rfl, State.skipOnKey_writesOnly _ fun out => ⟨rfl, out, rfl⟩⟩
  | ldVxK x => exact ⟨_, rfl, (start.startWait x ⟨x, rfl⟩).jump _⟩
  | ldDtVx x => exact ⟨_, rfl, (start.setDt _ ⟨x, rfl⟩).jump _⟩
  | ldStVx x => exact ⟨_, rfl, (start.setSt _ ⟨x, rfl⟩).jump _⟩
  | ldBVx x =>
    refine ⟨_, rfl, State.storeAtI_writesOnly (List.cons_ne_nil _ _) ⟨x, .inl rfl⟩ fun out => ⟨rfl, ?_, rfl⟩⟩
    change 4096 < s.i.toNat + 3 at out
    omega
  | ldMemIVx x =>
    refine ⟨_, rfl, State.storeAtI_writesOnly (s.getVsUpTo_ne_nil x) ⟨x, .inr rfl⟩ fun out => ⟨rfl, ?_, rfl⟩⟩
    rw [State.length_getVsUpTo] at out
    omega
  | ldVxMemI x =>
    obtain ⟨-, t, eq, frame, regs⟩ | ⟨out, eq⟩ := exec_ldVxMemI_cases s x
    · refine ⟨t, eq, ?_⟩
      rw [frame]
      refine { start with regs := fun r differs => ?_ }
      change t.getV r ≠ s.getV r at differs
      rw [regs] at differs
      by_contra above
      exact differs (if_neg above)
    · exact ⟨_, eq, start.raise _ ⟨rfl, out, rfl⟩⟩

theorem exec_isNext (i : Instr) (s : State) : ∃ t : State, exec i s = .next t :=
  (exec_writesOnly i s).imp fun _ => And.left

theorem writesOnly_of_exec {i : Instr} {s t : State} (h : exec i s = .next t) : WritesOnly i s t := by
  obtain ⟨t', run, writes⟩ := exec_writesOnly i s
  cases h.symm.trans run
  exact writes

/-- Settles O51: the fields of `WritesOnly`. -/
theorem writersOfEachStore : Obligations.WritersOfEachStore := by
  unfold Obligations.WritersOfEachStore
  intro i s t run
  have h := writesOnly_of_exec run
  exact ⟨h.regs, h.mem, h.disp, h.stack, h.sp, h.dt, h.st, h.index, h.keyWait, h.fault, h.changed, h.keypad, h.rnd,
    h.font, h.inputs, h.tick⟩

end Sys2Proof.Machine

/-! PROOFS. Faults (60_exceptions.md R171, R172): an instruction completes, or it meets the condition of its row of R171
and only latches that fault. -/

namespace Sys2Proof.Machine

open Sys2Proof.Safety

/-- `t` is where `i` completes from `s`: no condition of R171 is met, the latch is as before and `PC` made its
transition. -/
structure Completes (i : Instr) (s t : State) : Prop where
  latch : t.fault = s.fault
  transition : PcTransition i s t.pc
  notRaised : ∀ (cause : FaultCause) (info : Nat), ¬ Raises i s cause info

/-- `t` is where `i` faults from `s`: it meets a condition of R171 and that fault is all that `t` shows. -/
def Faults (i : Instr) (s t : State) : Prop :=
  ∃ (cause : FaultCause) (info : Nat), Raises i s cause info ∧ Faulted cause info s t

theorem faults_raise {i : Instr} {s : State} {cause : FaultCause} {info : Word} (h : Raises i s cause info.toNat) :
    Faults i s (s.raise cause info) :=
  ⟨cause, info.toNat, h, faulted_raise s cause info⟩

/-- Latching the record of an access from `I` on that leaves memory (R171, row 2). -/
theorem faults_raise_memOutOfRange {i : Instr} {s : State} (h : Raises i s .memOutOfRange (max s.i.toNat 4096)) :
    Faults i s (s.raise .memOutOfRange (firstOutOfRange s.i)) :=
  faults_raise (by rwa [toNat_firstOutOfRange])

theorem State.skipIf_completes {i : Instr} {s : State} (c : Bool)
    (skips : ∀ a, a = s.pc + 2 ∨ a = s.pc + 4 → PcTransition i s a) (never : ∀ cause info, ¬ Raises i s cause info) :
    Completes i s (s.skipIf c) := by
  rw [State.skipIf_eq]
  exact ⟨rfl, skips _ (by cases c <;> simp), never⟩

theorem State.skipOnKey_precise {i : Instr} {s : State} {x : Nibble} (pressed : Bool)
    (skips : ∀ a, a = s.pc + 2 ∨ a = s.pc + 4 → PcTransition i s a)
    (raises : ∀ cause info, Raises i s cause info ↔
      cause = .keyIndexOutOfRange ∧ (s.getV x).toNat > 15 ∧ info = (s.getV x).toNat) :
    Completes i s (s.skipOnKey x pressed) ∨ Faults i s (s.skipOnKey x pressed) := by
  obtain ⟨out, eq⟩ | ⟨inside, eq⟩ := s.skipOnKey_cases x pressed <;> rw [eq]
  · exact .inr (faults_raise ((raises _ _).2 ⟨rfl, out, toNat_infoOfByte _⟩))
  · refine .inl ⟨rfl, skips _ ?_, fun cause info raised => ?_⟩
    · cases s.keyDown (s.getV x).toNat == pressed <;> simp
    · obtain ⟨-, out, -⟩ := (raises cause info).1 raised
      omega

theorem State.storeAtI_precise {i : Instr} {s : State} {bytes : List Byte} (nonempty : bytes ≠ [])
    (advances : PcTransition i s (s.pc + 2))
    (raises : ∀ cause info, Raises i s cause info ↔
      cause = .memOutOfRange ∧ 4096 < s.i.toNat + bytes.length ∧ info = max s.i.toNat 4096) :
    Completes i s (s.storeAtI bytes) ∨ Faults i s (s.storeAtI bytes) := by
  obtain ⟨inside, eq⟩ | ⟨out, eq⟩ := s.storeAtI_cases bytes nonempty <;> rw [eq]
  · refine .inl ⟨rfl, advances, fun cause info raised => ?_⟩
    obtain ⟨-, out, -⟩ := (raises cause info).1 raised
    omega
  · exact .inr (faults_raise_memOutOfRange ((raises _ _).2 ⟨rfl, out, rfl⟩))

/-- Every instruction completes or faults. -/
theorem exec_precise (i : Instr) (s : State) : ∃ t : State, exec i s = .next t ∧ (Completes i s t ∨ Faults i s t) := by
  cases i with
  | ret =>
    refine ⟨_, rfl, ?_⟩
    cases pop : s.pop with
    | none => exact .inr (faults_raise ⟨rfl, s.pop_eq_none.1 pop, rfl⟩)
    | some top =>
      obtain ⟨frame, count, entry⟩ := State.pop_eq_some pop
      refine .inl ⟨(congrArg State.fault frame :), ⟨⟨top.2.sp.val, by omega⟩, count, entry _ count⟩, ?_⟩
      rintro cause info ⟨-, empty, -⟩
      omega
  | callNnn nnn =>
    refine ⟨_, rfl, ?_⟩
    cases push : s.push (s.pc + 2) with
    | none => exact .inr (faults_raise ⟨rfl, (s.push_eq_none _).1 push, rfl⟩)
    | some s' =>
      obtain ⟨frame, count, -⟩ := State.push_eq_some push
      refine .inl ⟨(congrArg State.fault frame :), toNat_addrOf nnn, ?_⟩
      rintro cause info ⟨-, full, -⟩
      omega
  | jpNnn nnn => exact ⟨_, rfl, .inl ⟨rfl, toNat_addrOf nnn, fun _ _ => id⟩⟩
  | jpV0Nnn nnn => exact ⟨_, rfl, .inl ⟨rfl, toNat_indexedAddr nnn (s.getV 0), fun _ _ => id⟩⟩
  | seVxKk | sneVxKk | seVxVy | sneVxVy =>
    exact ⟨_, rfl, .inl (State.skipIf_completes _ (fun _ => id) fun _ _ => id)⟩
  | skpVx | sknpVx => exact ⟨_, rfl, State.skipOnKey_precise _ (fun _ => id) fun _ _ => Iff.rfl⟩
  | ldBVx x =>
    refine ⟨_, rfl, State.storeAtI_precise (List.cons_ne_nil _ _) rfl fun cause info => ?_⟩
    change _ ∧ s.i.toNat + 2 > 4095 ∧ _ ↔ _ ∧ 4096 < s.i.toNat + 3 ∧ _
    exact and_congr_right' (and_congr_left' (by omega))
  | ldMemIVx x =>
    refine ⟨_, rfl, State.storeAtI_precise (s.getVsUpTo_ne_nil x) rfl fun cause info => ?_⟩
    rw [State.length_getVsUpTo]
    change _ ∧ s.i.toNat + x.toNat > 4095 ∧ _ ↔ _
    exact and_congr_right' (and_congr_left' (by omega))
  | addIVx x =>
    refine ⟨_, rfl, ?_⟩
    split
    · next overflow => exact .inr (faults_raise ⟨rfl, overflow, rfl⟩)
    · next fits => exact .inl ⟨rfl, rfl, fun _ _ ⟨_, overflow, _⟩ => fits overflow⟩
  | drwVxVyN x y n =>
    obtain ⟨fits, drawn, -, eq⟩ | ⟨rows, out, eq⟩ := exec_drwVxVyN_cases s x y n
    · refine ⟨_, eq, .inl ⟨rfl, rfl, ?_⟩⟩
      rintro cause info ⟨-, rows, out, -⟩
      obtain rfl | fits := fits
      · exact absurd rows (Nat.lt_irrefl 0)
      · omega
    · exact ⟨_, eq, .inr (faults_raise_memOutOfRange ⟨rfl, BitVec.toNat_pos_of_ne_zero rows, out, rfl⟩)⟩
  | ldVxMemI x =>
    obtain ⟨fits, t, eq, frame, -⟩ | ⟨out, eq⟩ := exec_ldVxMemI_cases s x
    · refine ⟨t, eq, .inl ⟨(congrArg State.fault frame :), (congrArg State.pc frame :), ?_⟩⟩
      rintro cause info ⟨-, out, -⟩
      omega
    · exact ⟨_, eq, .inr (faults_raise_memOutOfRange ⟨rfl, out, rfl⟩)⟩
  | _ => exact ⟨_, rfl, .inl ⟨rfl, rfl, fun _ _ => id⟩⟩

theorem precise_of_exec {i : Instr} {s t : State} (h : exec i s = .next t) : Completes i s t ∨ Faults i s t := by
  obtain ⟨t', run, precise⟩ := exec_precise i s
  cases h.symm.trans run
  exact precise

/-- Settles O50. -/
theorem faultsArePrecise : Obligations.FaultsArePrecise := by
  unfold Obligations.FaultsArePrecise
  intro i s
  obtain ⟨t, run, precise⟩ := exec_precise i s
  exact ⟨t, run, precise.imp_left fun ⟨latch, transition, notRaised⟩ => ⟨latch, transition, notRaised⟩⟩

/-- An instruction that faults leaves a latched record of its own `PC`, and nothing else but `display_changed`. -/
theorem Faults.frame {i : Instr} {s t : State} (h : Faults i s t) :
    t = { s with fault := t.fault, displayChanged := false } ∧ ∃ r : FaultRecord, t.fault = some r ∧ r.pc = s.pc := by
  obtain ⟨-, -, -, frame, r, latched, -, pc, -⟩ := h
  exact ⟨frame, r, latched, pc⟩

end Sys2Proof.Machine

/-! PROOFS. The ports of a STEP (10_state.md R24, R26): every operation on the state commutes with giving the ports
other values, but the reader of a port. -/

namespace Sys2Proof.Machine

open Sys2Proof.Safety

/-- `s` with other values on its two input ports. -/
def State.withPorts (s : State) (k : BitVec 16) (r : Byte) : State := { s with keypad := k, rnd := r }

section
variable (s : State) (k : BitVec 16) (r : Byte)

@[simp] theorem State.withPorts_pc : (s.withPorts k r).pc = s.pc := rfl
@[simp] theorem State.withPorts_i : (s.withPorts k r).i = s.i := rfl

theorem State.skipIf_withPorts (c : Bool) : (s.withPorts k r).skipIf c = (s.skipIf c).withPorts k r := by
  cases c <;> rfl

theorem State.push_withPorts (a : Word) : (s.withPorts k r).push a = (s.push a).map (·.withPorts k r) := by
  unfold State.push
  rw [apply_dite (Option.map _)]
  rfl

theorem State.pop_withPorts : (s.withPorts k r).pop = s.pop.map fun top => (top.1, top.2.withPorts k r) := by
  unfold State.pop
  rw [apply_dite (Option.map _)]
  rfl

theorem State.setVs_withPorts (q : Nat) (bytes : List Byte) :
    (s.withPorts k r).setVs q bytes = (s.setVs q bytes).withPorts k r := by
  induction bytes generalizing s q with
  | nil => rfl
  | cons b bs ih => exact ih (s.setV (BitVec.ofNat 4 q) b) (q + 1)

theorem State.writeRange_withPorts (base : Nat) (bytes : List Byte) :
    (s.withPorts k r).writeRange base bytes = (s.writeRange base bytes).map (·.withPorts k r) := by
  unfold State.writeRange
  rw [apply_ite (Option.map _)]
  rfl

theorem State.readRange_withPorts (base len : Nat) : (s.withPorts k r).readRange base len = s.readRange base len := rfl

theorem State.storeAtI_withPorts (bytes : List Byte) :
    (s.withPorts k r).storeAtI bytes = (s.storeAtI bytes).withPorts k r := by
  simp only [State.storeAtI, State.withPorts_i, State.writeRange_withPorts]
  cases s.writeRange s.i.toNat bytes <;> rfl

/-- A key skip reads the keypad, but not the random byte. -/
theorem State.skipOnKey_withPorts (x : Nibble) (pressed : Bool) :
    (s.withPorts s.keypad r).skipOnKey x pressed = (s.skipOnKey x pressed).withPorts s.keypad r := by
  unfold State.skipOnKey
  rw [apply_ite (State.withPorts · s.keypad r)]
  exact if_congr Iff.rfl rfl (s.skipIf_withPorts s.keypad r _)

end

/-- The instruction looks at the keypad (44_keypad_timers.md R150, R151). -/
def ReadsKeypad (i : Instr) : Prop := ∃ x : Nibble, i = .skpVx x ∨ i = .sknpVx x

/-- The instruction takes the random byte (42_alu.md R131). -/
def ReadsRnd (i : Instr) : Prop := ∃ (x : Nibble) (kk : Byte), i = .rndVxKk x kk

/-- The outcome is the same but for the ports, where a port that `i` reads keeps its value. -/
theorem exec_withPorts {i : Instr} {s t : State} {k : BitVec 16} {r : Byte} (run : exec i s = .next t)
    (keypad : ReadsKeypad i → k = s.keypad) (rnd : ReadsRnd i → r = s.rnd) :
    exec i (s.withPorts k r) = .next (t.withPorts k r) := by
  cases i with
  | ret =>
    cases run
    simp only [exec, execRet, State.pop_withPorts]
    cases s.pop <;> rfl
  | callNnn nnn =>
    cases run
    simp only [exec, execCallNnn, State.withPorts_pc, State.push_withPorts]
    cases s.push (s.pc + 2) <;> rfl
  | seVxKk | sneVxKk | seVxVy | sneVxVy =>
    cases run
    exact congrArg _ (s.skipIf_withPorts k r _)
  | skpVx x | sknpVx x =>
    cases run
    obtain rfl := keypad ⟨x, by simp⟩
    exact congrArg _ (s.skipOnKey_withPorts r x _)
  | rndVxKk x kk =>
    cases run
    obtain rfl := rnd ⟨x, kk, rfl⟩
    rfl
  | ldBVx | ldMemIVx =>
    cases run
    exact congrArg _ (s.storeAtI_withPorts k r _)
  | addIVx x =>
    cases run
    refine congrArg Host.Outcome.next ?_
    rw [apply_ite (State.withPorts · k r)]
    rfl
  | drwVxVyN x y n =>
    cases run
    simp only [exec, execDrwVxVyN, State.withPorts_i, State.readRange_withPorts]
    cases s.readRange s.i.toNat n.toNat <;> rfl
  | ldVxMemI x =>
    cases run
    simp only [exec, execLdVxMemI, State.withPorts_i, State.readRange_withPorts, State.setVs_withPorts]
    cases s.readRange s.i.toNat (x.toNat + 1) <;> rfl
  | _ => cases run; rfl

/-- Settles O52: `exec_withPorts` with one of the two ports kept. -/
theorem portsReachOnlyTheirReaders : Obligations.PortsReachOnlyTheirReaders := by
  unfold Obligations.PortsReachOnlyTheirReaders
  intro i s t run
  have kept := writesOnly_of_exec run
  refine ⟨fun r other => ?_, fun k other => ?_⟩
  · have keypadKept : t.withPorts s.keypad r = { t with rnd := r } := by rw [← kept.keypad]; rfl
    rw [← keypadKept]
    exact exec_withPorts run (fun _ => rfl) fun ⟨x, kk, e⟩ => absurd e (other x kk)
  · have rndKept : t.withPorts k s.rnd = { t with keypad := k } := by rw [← kept.rnd]; rfl
    rw [← rndKept]
    exact exec_withPorts run (fun ⟨x, e⟩ => absurd e (not_or.2 (other x))) fun _ => rfl

end Sys2Proof.Machine

/-! PROOFS. Control transfer (41_flow.md): the indexed jump (R108), CALL and RET (R101, R103). -/

namespace Sys2Proof.Machine

open Sys2Proof.Safety

/-- Settles O17: the target is `indexedAddr`, a sum that no byte and no 12-bit operand takes past 16 bits. -/
theorem indexedJumpAddsV0 : Obligations.IndexedJumpAddsV0 := by
  unfold Obligations.IndexedJumpAddsV0
  intro nnn s
  exact ⟨s.jump (indexedAddr nnn (s.getV 0)), rfl, rfl, toNat_indexedAddr nnn (s.getV 0),
    sameMemory_of_mem_eq (s.jump_mem _)⟩

/-- What the meaning of CALL can do (R103). -/
theorem exec_callNnn_cases (nnn : Addr12) (s : State) :
    (s.sp.val < 16 ∧ ∃ t : State, exec (.callNnn nnn) s = .next t ∧
      t = { s with pc := addrOf nnn, sp := t.sp, stack := t.stack } ∧ t.sp.val = s.sp.val + 1 ∧
      ∀ k : Fin 16, t.stack[k.val] = if k.val = s.sp.val then s.pc + 2 else s.stack[k.val]) ∨
    (s.sp.val = 16 ∧ exec (.callNnn nnn) s = .next (s.raise .stackOverflow 16)) := by
  simp only [exec, execCallNnn]
  cases push : s.push (s.pc + 2) with
  | none => exact .inr ⟨(s.push_eq_none _).1 push, rfl⟩
  | some s' =>
    obtain ⟨frame, count, entries⟩ := State.push_eq_some push
    exact .inl ⟨by omega, s'.jump (addrOf nnn), rfl, congrArg (State.jump · (addrOf nnn)) frame, count, entries⟩

/-- What the meaning of RET can do (R101). -/
theorem exec_ret_cases (s : State) :
    (0 < s.sp.val ∧ ∃ t : State, exec .ret s = .next t ∧ t = { s with pc := t.pc, sp := t.sp } ∧
      t.sp.val + 1 = s.sp.val ∧ ∀ k : Fin 16, k.val + 1 = s.sp.val → t.pc = s.stack[k.val]) ∨
    (s.sp.val = 0 ∧ exec .ret s = .next (s.raise .stackUnderflow 0)) := by
  simp only [exec, execRet]
  cases pop : s.pop with
  | none => exact .inr ⟨s.pop_eq_none.1 pop, rfl⟩
  | some top =>
    obtain ⟨frame, count, entry⟩ := State.pop_eq_some pop
    exact .inl ⟨by omega, top.2.jump top.1, rfl, congrArg (State.jump · top.1) frame, count, entry⟩

/-- Settles O18. -/
theorem callPushesReturnAddress : Obligations.CallPushesReturnAddress := by
  unfold Obligations.CallPushesReturnAddress
  intro nnn s room
  obtain ⟨-, t, run, frame, count, entries⟩ | ⟨full, -⟩ := exec_callNnn_cases nnn s
  · have pc : t.pc = addrOf nnn := congrArg State.pc frame
    exact ⟨t, run, pc ▸ frame, pc ▸ toNat_addrOf nnn, count, entries,
      sameMemory_of_mem_eq (congrArg State.mem frame :)⟩
  · omega

/-- Settles O19. -/
theorem returnJumpsToTopEntry : Obligations.ReturnJumpsToTopEntry := by
  unfold Obligations.ReturnJumpsToTopEntry
  intro s occupied
  obtain ⟨-, t, run, frame, count, entry⟩ | ⟨empty, -⟩ := exec_ret_cases s
  · exact ⟨t, run, frame, count, entry, sameMemory_of_mem_eq (congrArg State.mem frame :)⟩
  · omega

/-- Settles O20. -/
theorem stackLimitsFault : Obligations.StackLimitsFault := by
  unfold Obligations.StackLimitsFault
  refine ⟨fun nnn s full => ?_, fun s empty => ?_⟩
  · obtain ⟨room, -⟩ | ⟨-, run⟩ := exec_callNnn_cases nnn s
    · omega
    · exact ⟨_, run, faulted_raise s .stackOverflow 16⟩
  · obtain ⟨occupied, -⟩ | ⟨-, run⟩ := exec_ret_cases s
    · omega
    · exact ⟨_, run, faulted_raise s .stackUnderflow 0⟩

/-- Settles O21: the RET finds the entry that the CALL pushed. -/
theorem callThenReturnComesBack : Obligations.CallThenReturnComesBack := by
  unfold Obligations.CallThenReturnComesBack
  intro nnn s room
  obtain ⟨-, t, call, callFrame, callCount, entries⟩ | ⟨full, -⟩ := exec_callNnn_cases nnn s
  · obtain ⟨-, u, ret, retFrame, retCount, entry⟩ | ⟨empty, -⟩ := exec_ret_cases t
    · have pc : u.pc = s.pc + 2 := by
        rw [entry ⟨s.sp.val, room⟩ callCount.symm, entries, if_pos rfl]
      have sp : u.sp = s.sp := Fin.ext (by omega)
      have stack : u.stack = t.stack := (congrArg State.stack retFrame :)
      refine ⟨t, u, call, ret, ?_, fun k => stack ▸ entries k⟩
      rw [retFrame, pc, sp, callFrame]
    · omega
  · omega

end Sys2Proof.Machine

/-! PROOFS. The step cycle (40_step_cycle.md): what a STEP does in each of its three kinds, its outputs and the
transitions between the kinds. -/

namespace Sys2Proof.Machine

open Sys2Proof.Safety

/-! ### The step, from the state it answers -/

/-- Settles O9: by `step_cases`, and in a Running step by `exec_isNext`. -/
theorem stepIsTotal : Obligations.StepIsTotal := by
  unfold Obligations.StepIsTotal
  intro s
  obtain ⟨-, eq⟩ | ⟨-, eq⟩ | ⟨-, -, eq⟩ | ⟨w, -, -, eq⟩ := step_cases s
  · exact ⟨_, eq⟩
  · exact ⟨_, eq⟩
  · exact ⟨_, eq⟩
  · exact eq ▸ exec_isNext _ _

/-- Where a STEP can lead: one of these four, by mode and fetch. -/
theorem next_cases {s t : State} (h : step s = .next t) :
    (s.mode = .faulted ∧ t = s.beginStep) ∨
    (s.mode = .awaitingKey ∧ t = s.beginStep.awaitKey) ∨
    (s.mode = .running ∧ s.fetch = none ∧ t = s.beginStep.tickTimers.raise .fetchOutOfRange s.pc) ∨
    ∃ w, s.mode = .running ∧ s.fetch = some w ∧ exec (decodeWord w) s.beginStep.tickTimers = .next t := by
  obtain ⟨mode, eq⟩ | ⟨mode, eq⟩ | ⟨mode, fetch, eq⟩ | ⟨w, mode, fetch, eq⟩ := step_cases s
  · exact .inl ⟨mode, Host.Outcome.next.inj (h.symm.trans eq)⟩
  · exact .inr (.inl ⟨mode, Host.Outcome.next.inj (h.symm.trans eq)⟩)
  · exact .inr (.inr (.inl ⟨mode, fetch, Host.Outcome.next.inj (h.symm.trans eq)⟩))
  · exact .inr (.inr (.inr ⟨w, mode, fetch, eq.symm.trans h⟩))

theorem State.fetch_eq_none {s : State} : s.fetch = none ↔ 4094 < s.pc.toNat := by
  rw [State.fetch_eq, ite_eq_left_iff]
  simp

theorem State.fetch_eq_some {s : State} {w : Word} :
    s.fetch = some w ↔
      s.pc.toNat ≤ 4094 ∧ wordOfBytes (s.readMem s.pc.toNat) (s.readMem (s.pc.toNat + 1)) = w := by
  rw [State.fetch_eq]
  split <;> simp <;> omega

/-- The start of a step changes no state of the core. -/
theorem State.beginStep_sameCore (s : State) : SameCore s s.beginStep := by
  rw [sameCore_iff]
  simp

/-- Settles O7. -/
theorem stepStartSamplesInputs : Obligations.StepStartSamplesInputs := by
  unfold Obligations.StepStartSamplesInputs
  refine fun s => ⟨s.beginStep_sameCore, s.beginStep_displayChanged, s.beginStep_tick, fun p rest listed => ?_⟩
  simp only [State.beginStep, State.sampleInputs, listed, and_self]

/-- Settles O6: the fetch answers the word of the two bytes. -/
theorem stepRunsDecodedInstruction : Obligations.StepRunsDecodedInstruction := by
  unfold Obligations.StepRunsDecodedInstruction
  intro s i noFault noWait inside _ decoded
  have word : decodeWord (wordOfBytes (s.readMem s.pc.toNat) (s.readMem (s.pc.toNat + 1))) = i :=
    congrArg Prod.fst (Except.ok.inj decoded)
  rw [step_of_running (State.mode_eq_running.2 ⟨noFault, noWait⟩) (State.fetch_eq_some.2 ⟨inside, rfl⟩), word]

/-! ### The step by kind -/

section
variable (s : State)

/-- An AwaitingKey step writes the register file and the key wait alone. -/
theorem State.awaitKey_eq : s.awaitKey = { s with v := s.awaitKey.v, wait := s.awaitKey.wait } := by
  obtain ⟨-, eq⟩ | ⟨k, -, -, -, eq⟩ := s.awaitKey_cases
  · rw [eq]
  · rw [eq]
    rfl

@[simp] theorem State.awaitKey_pc : s.awaitKey.pc = s.pc := by rw [State.awaitKey_eq]
@[simp] theorem State.awaitKey_stack : s.awaitKey.stack = s.stack := by rw [State.awaitKey_eq]
@[simp] theorem State.awaitKey_fault : s.awaitKey.fault = s.fault := by rw [State.awaitKey_eq]
@[simp] theorem State.awaitKey_mem : s.awaitKey.mem = s.mem := by rw [State.awaitKey_eq]
@[simp] theorem State.awaitKey_displayChanged : s.awaitKey.displayChanged = s.displayChanged := by
  rw [State.awaitKey_eq]

end

/-- Settles O10. -/
theorem faultedStepChangesNothing : Obligations.FaultedStepChangesNothing := by
  unfold Obligations.FaultedStepChangesNothing
  intro s latched
  refine ⟨_, step_of_faulted (State.mode_eq_faulted.2 latched), s.beginStep_sameCore, s.beginStep_displayChanged, ?_⟩
  rw [State.tone, State.beginStep_st, State.tone]

/-- Settles O11: `State.awaitKey_cases` at the sampled keypad. -/
theorem awaitingKeyTakesLowestKey : Obligations.AwaitingKeyTakesLowestKey := by
  unfold Obligations.AwaitingKeyTakesLowestKey
  intro s noFault waiting
  have eq := step_of_awaitingKey (State.mode_eq_awaitingKey.2 ⟨noFault, waiting⟩)
  refine ⟨fun noKey => ?_, fun k k_lt pressed least => ?_⟩
  · have same : s.beginStep.awaitKey = s.beginStep := by
      rw [State.awaitKey, State.firstKey_eq_none.2 noKey]
    exact ⟨_, eq.trans (congrArg _ same), s.beginStep_sameCore, s.beginStep_displayChanged⟩
  · have taken : s.beginStep.awaitKey =
        { s.beginStep.setV s.wreg (BitVec.ofNat 8 k) with wait := false } := by
      rw [State.awaitKey, State.firstKey_eq_some.2 ⟨k_lt, pressed, least⟩, State.beginStep_wreg]
    refine ⟨_, eq.trans (congrArg _ taken), ?_, s.beginStep_displayChanged, ?_, fun r other => ?_⟩
    · rw [sameCore_iff]
      simp
    · change ((s.beginStep.setV s.wreg _).getV s.wreg).toNat = k
      rw [State.getV_setV_self, BitVec.toNat_ofNat]
      omega
    · change (s.beginStep.setV s.wreg _).getV r = s.getV r
      rw [State.getV_setV_ne _ _ other, State.getV_beginStep]

/-- Settles O12: such a word decodes to itself, and its meaning is `State.advance`. -/
theorem unknownWordAdvances : Obligations.UnknownWordAdvances := by
  unfold Obligations.UnknownWordAdvances
  refine ⟨fun w s => ⟨s.advance, rfl, rfl, sameMemory_of_mem_eq s.advance_mem⟩, fun s w running fetched unknown => ?_⟩
  have eq : step s = .next s.beginStep.tickTimers.advance := by
    rw [step_of_running running fetched, decodeWord_of_isUnknownWord unknown]
    rfl
  refine ⟨_, eq, s.beginStep_displayChanged, ?_, ?_, ?_⟩
  · rw [sameCore_iff]
    simp
  · simp [toNat_countDown]
  · simp [toNat_countDown]

/-- Settles O13. -/
theorem fetchBeyondMemoryFaults : Obligations.FetchBeyondMemoryFaults := by
  unfold Obligations.FetchBeyondMemoryFaults
  intro s running beyond
  refine ⟨_, step_of_fetch_fault running (State.fetch_eq_none.2 beyond), faulted_raise _ _ _, ?_, ?_⟩
  · simp [toNat_countDown]
  · simp [toNat_countDown]

/-- A finished run is a matter of the core's state. -/
theorem finished_of_sameCore {s t : State} (same : SameCore s t) (h : Finished s) : Finished t := by
  obtain ⟨-, -, pc, -, -, dt, st, -, wait, -, fault, mem, -⟩ := sameCore_iff.1 same
  simpa only [Finished, State.mode, State.readMem, pc, dt, st, wait, fault, mem] using h

/-- Settles O53: the word at `PC` is the jump to `PC`, and timers at 0 stay at 0. -/
theorem finishedIsAFixedPoint : Obligations.FinishedIsAFixedPoint := by
  unfold Obligations.FinishedIsAFixedPoint
  intro s finished
  have ⟨running, dt, st, inside, low, word⟩ := finished
  rw [← toNat_wordOfBytes] at word
  have jump : decodeWord (wordOfBytes (s.readMem s.pc.toNat) (s.readMem (s.pc.toNat + 1))) =
      .jpNnn (s.pc.setWidth 12) := by
    rw [← decodeWord_encode (i := .jpNnn (s.pc.setWidth 12)) rfl]
    refine congrArg _ (BitVec.eq_of_toNat_eq ?_)
    rw [word, encode, toNat_wordNNN, BitVec.toNat_setWidth, Nat.mod_eq_of_lt (by omega)]
    rfl
  have pc : addrOf (s.pc.setWidth 12) = s.pc := by
    refine BitVec.eq_of_toNat_eq ?_
    rw [toNat_addrOf, BitVec.toNat_setWidth]
    omega
  have eq : step s = .next (s.beginStep.tickTimers.jump s.pc) := by
    rw [step_of_running running (State.fetch_eq_some.2 ⟨inside, rfl⟩), jump, exec, execJpNnn, pc]
  have same : SameCore s (s.beginStep.tickTimers.jump s.pc) := by
    rw [sameCore_iff]
    simp [dt, st, countDown]
  exact ⟨_, eq, same, finished_of_sameCore same finished⟩

/-! ### The outputs and the next kind -/

/-- An instruction that starts with `display_changed` at 0 sets it iff it is `00E0` or `Dxyn` and completes (R88). -/
theorem displayChanged_of_exec {i : Instr} {s t : State} (run : exec i s = .next t) (cleared : s.displayChanged = false)
    (noFault : s.fault = none) :
    t.displayChanged = true ↔ t.fault = none ∧ (i = .cls ∨ ∃ x y n : Nibble, i = .drwVxVyN x y n) := by
  constructor
  · intro changed
    obtain complete | faults := precise_of_exec run
    · refine ⟨complete.latch.trans noFault, ?_⟩
      obtain cls | drw | ⟨cause, info, raises⟩ := (writesOnly_of_exec run).changed (by simp [changed, cleared])
      · exact .inl cls
      · exact .inr drw
      · exact absurd raises (complete.notRaised cause info)
    · have : t.displayChanged = false := congrArg State.displayChanged faults.frame.1
      simp [this] at changed
  · rintro ⟨completed, rfl | ⟨x, y, n, rfl⟩⟩
    · cases run
      rfl
    · obtain ⟨-, drawn, -, eq⟩ | ⟨-, -, eq⟩ := exec_drwVxVyN_cases s x y n <;> cases run.symm.trans eq
      · rfl
      · exact absurd completed nofun

/-- Settles O14: by `next_cases`, and in a Running step by `displayChanged_of_exec`. -/
theorem outputsOfAStep : Obligations.OutputsOfAStep := by
  unfold Obligations.OutputsOfAStep
  intro s
  obtain ⟨t, run⟩ := stepIsTotal s
  refine ⟨t, run, ?_, t.tone_iff, rfl⟩
  obtain ⟨mode, rfl⟩ | ⟨mode, rfl⟩ | ⟨mode, fetch, rfl⟩ | ⟨w, mode, fetch, run⟩ := next_cases run
  · simp [mode]
  · simp [mode]
  · simp [fetch]
  · have noFault : s.fault = none := (State.mode_eq_running.1 mode).1
    rw [displayChanged_of_exec run (by simp) (by simpa using noFault)]
    simp [mode, fetch]

theorem State.awaitKey_mode {s : State} (h : s.mode = .awaitingKey) :
    s.awaitKey.mode = if s.keypad = 0 then .awaitingKey else .running := by
  obtain ⟨noKey, eq⟩ | ⟨k, -, pressed, -, eq⟩ := s.awaitKey_cases
  · rw [if_pos noKey, eq, h]
  · have someKey : s.keypad ≠ 0 := by
      intro e
      simp [e] at pressed
    rw [if_neg someKey, State.mode_eq_running, eq]
    exact ⟨(State.mode_eq_awaitingKey.1 h).1, rfl⟩

/-- An instruction run without a pending key wait starts one iff it is `LD Vx, K` (R153). -/
theorem awaitingKey_of_exec {i : Instr} {s t : State} (run : exec i s = .next t) (mode : s.mode = .running) :
    t.mode = .awaitingKey ↔ ∃ x : Nibble, i = .ldVxK x := by
  obtain ⟨noFault, noWait⟩ := State.mode_eq_running.1 mode
  constructor
  · intro awaiting
    exact (writesOnly_of_exec run).keyWait (.inl (by simp [noWait, (State.mode_eq_awaitingKey.1 awaiting).2]))
  · rintro ⟨x, rfl⟩
    cases run
    exact State.mode_eq_awaitingKey.2 ⟨noFault, rfl⟩

/-- Settles O15: by `next_cases`; in a Running step `awaitingKey_of_exec` gives the key wait, and a new latch is the
record of a faulting instruction. -/
theorem stateMachineTransitions : Obligations.StateMachineTransitions := by
  unfold Obligations.StateMachineTransitions
  intro s
  obtain ⟨t, run⟩ := stepIsTotal s
  refine ⟨t, run, ?_⟩
  obtain ⟨mode, rfl⟩ | ⟨mode, rfl⟩ | ⟨mode, fetch, rfl⟩ | ⟨w, mode, fetch, run⟩ := next_cases run
  · simp [mode]
  · simp [mode, State.awaitKey_mode]
  · simp [mode, fetch, State.mode_eq_awaitingKey]
  · have start : s.beginStep.tickTimers.mode = .running := s.mode_beginStep.trans mode
    have latchesOwnPc (faulted : t.mode = .faulted) : ∃ r : FaultRecord, t.fault = some r ∧ r.pc = s.pc := by
      obtain complete | faults := precise_of_exec run
      · exact absurd (complete.latch.trans (State.mode_eq_running.1 start).1) (State.mode_eq_faulted.1 faulted)
      · simpa using faults.frame.2
    simpa [mode, fetch, awaitingKey_of_exec run start] using latchesOwnPc

end Sys2Proof.Machine

/-! PROOFS. The invariants: the canonical form of memory (20_memory.md R40), the record in the fault latch
(60_exceptions.md R171, R172), the bounds on `PC` and the return addresses (10_state.md R15). Each holds at reset and is
kept by every STEP. -/

namespace Sys2Proof.Machine

open Sys2Proof.Safety

/-! ### The canonical form of memory -/

theorem memoryCanonical_congr {s t : State} (mem : t.mem = s.mem) : MemoryCanonical t ↔ MemoryCanonical s := by
  rw [MemoryCanonical, MemoryCanonical, mem]

theorem State.storeAtI_canonical {s : State} (canonical : MemoryCanonical s) {bytes : List Byte}
    (nonempty : bytes ≠ []) : MemoryCanonical (s.storeAtI bytes) := by
  obtain ⟨inside, eq⟩ | ⟨-, eq⟩ := s.storeAtI_cases bytes nonempty <;> rw [eq]
  · exact Memory.writeBytes_wf canonical _ _ (.inr inside)
  · exact canonical

theorem memoryCanonical_of_exec {i : Instr} {s t : State} (canonical : MemoryCanonical s) (run : exec i s = .next t) :
    MemoryCanonical t := by
  by_cases same : t.mem = s.mem
  · exact (memoryCanonical_congr same).2 canonical
  · obtain ⟨x, rfl | rfl⟩ := (writesOnly_of_exec run).mem same <;> cases run
    · exact State.storeAtI_canonical canonical (List.cons_ne_nil _ _)
    · exact State.storeAtI_canonical canonical (s.getVsUpTo_ne_nil x)

/-- Settles O54: of the steps only an instruction writes memory, and of the instructions only the two stores. -/
theorem stepKeepsMemoryCanonical : Obligations.StepKeepsMemoryCanonical := by
  unfold Obligations.StepKeepsMemoryCanonical
  intro s t canonical run
  have start : MemoryCanonical s.beginStep := (memoryCanonical_congr s.beginStep_mem).2 canonical
  obtain ⟨-, rfl⟩ | ⟨-, rfl⟩ | ⟨-, -, rfl⟩ | ⟨w, -, -, run⟩ := next_cases run
  · exact start
  · exact (memoryCanonical_congr s.beginStep.awaitKey_mem).2 start
  · exact start
  · exact memoryCanonical_of_exec (s := s.beginStep.tickTimers) start run

theorem memoryCanonical_resetWith (rows : Config.GlyphRows) : MemoryCanonical (State.resetWith rows) := by
  have empty : Memory.wf [] := ⟨.nil, by simp⟩
  refine Memory.writeBytes_wf empty 0 _ (.inr ?_)
  rw [length_fontTable]
  decide

/-- A LOAD keeps the form: what it writes ends at 4095 (70_reset_and_hazards.md R192). -/
theorem State.load_canonical {s : State} (canonical : MemoryCanonical s) (bytes : List Byte) :
    MemoryCanonical (s.load bytes) := by
  refine Memory.writeBytes_wf canonical _ _ (.inr ?_)
  rw [List.length_take]
  have base : Config.progBase.toNat = 512 := rfl
  have size : Config.memSize = 4096 := rfl
  omega

/-- Settles O55. -/
theorem resetMemoryCanonical : Obligations.ResetMemoryCanonical := by
  unfold Obligations.ResetMemoryCanonical
  exact fun rows => ⟨memoryCanonical_resetWith rows, State.load_canonical (memoryCanonical_resetWith rows)⟩

/-! ### The record in the fault latch -/

/-- A record fits or not by `PC`, `I`, `SP` and the registers alone. -/
theorem recordFits_congr {s t : State} {r : FaultRecord} (pc : t.pc = s.pc) (i : t.i = s.i) (sp : t.sp = s.sp)
    (v : t.v = s.v) : RecordFits t r ↔ RecordFits s r := by
  simp only [RecordFits, State.getV, pc, i, sp, v]

/-- The condition an instruction meets is the condition its record names. -/
theorem recordFits_of_raises {i : Instr} {s : State} {r : FaultRecord} (raises : Raises i s r.cause r.info.toNat)
    (pc : r.pc = s.pc) : RecordFits s r := by
  obtain ⟨cause, pc', info⟩ := r
  cases i with
  | drwVxVyN x y n =>
    obtain ⟨rfl, -, out, first⟩ := raises
    exact ⟨pc, first, by omega⟩
  | ldBVx x =>
    obtain ⟨rfl, out, first⟩ := raises
    exact ⟨pc, first, by omega⟩
  | ldMemIVx x | ldVxMemI x =>
    obtain ⟨rfl, out, first⟩ := raises
    exact ⟨pc, first, by omega⟩
  | callNnn nnn =>
    obtain ⟨rfl, full, entries⟩ := raises
    exact ⟨pc, BitVec.eq_of_toNat_eq entries, full⟩
  | ret =>
    obtain ⟨rfl, empty, entries⟩ := raises
    exact ⟨pc, BitVec.eq_of_toNat_eq entries, empty⟩
  | skpVx x | sknpVx x =>
    obtain ⟨rfl, out, index⟩ := raises
    exact ⟨pc, by omega, x, index⟩
  | addIVx x =>
    obtain ⟨rfl, overflow, base⟩ := raises
    exact ⟨pc, BitVec.eq_of_toNat_eq base, x, overflow⟩
  | _ => exact raises.elim

theorem faultConsistent_of_noFault {s : State} (h : s.fault = none) : FaultConsistent s := fun r latched => by
  cases h.symm.trans latched

/-- An instruction that runs in a Running state leaves no latch, or the record of its own fault. -/
theorem faultConsistent_of_exec {i : Instr} {s t : State} (mode : s.mode = .running) (run : exec i s = .next t) :
    FaultConsistent t := by
  obtain ⟨noFault, noWait⟩ := State.mode_eq_running.1 mode
  obtain complete | ⟨cause, info, raises, frame, r, latched, rfl, pc, rfl⟩ := precise_of_exec run
  · exact faultConsistent_of_noFault (complete.latch.trans noFault)
  · intro r' latched'
    cases latched.symm.trans latched'
    rw [frame]
    exact ⟨(recordFits_congr rfl rfl rfl rfl).2 (recordFits_of_raises raises pc), noWait⟩

/-- Settles O56: a FAULTED step keeps the record and what it speaks of, an AwaitingKey step has none, and a Running step
latches one of the fetch or of its instruction. -/
theorem stepKeepsFaultConsistent : Obligations.StepKeepsFaultConsistent := by
  unfold Obligations.StepKeepsFaultConsistent
  intro s t consistent run
  obtain ⟨-, rfl⟩ | ⟨mode, rfl⟩ | ⟨mode, fetch, rfl⟩ | ⟨w, mode, -, run⟩ := next_cases run
  · intro r latched
    obtain ⟨fits, noWait⟩ := consistent r (s.beginStep_fault ▸ latched)
    exact ⟨(recordFits_congr s.beginStep_pc s.beginStep_i s.beginStep_sp s.beginStep_v).2 fits,
      s.beginStep_wait.trans noWait⟩
  · refine faultConsistent_of_noFault ?_
    rw [State.awaitKey_fault, State.beginStep_fault]
    exact (State.mode_eq_awaitingKey.1 mode).1
  · intro r latched
    cases latched
    have beyond : s.beginStep.pc.toNat > 4094 := by
      rw [State.beginStep_pc]
      exact State.fetch_eq_none.1 fetch
    exact ⟨⟨rfl, s.beginStep_pc.symm, beyond⟩, s.beginStep_wait.trans (State.mode_eq_running.1 mode).2⟩
  · exact faultConsistent_of_exec (s := s.beginStep.tickTimers) (s.mode_beginStep.trans mode) run

/-! ### The bounds on addresses -/

/-- After a fetch no sum on `PC` wraps (R15). -/
theorem toNat_pc_add {pc : Word} (inside : pc.toNat ≤ 4094) {k : Word} (small : k.toNat ≤ 4) :
    (pc + k).toNat = pc.toNat + k.toNat := by
  rw [BitVec.toNat_add]
  omega

/-- The transition of an instruction that was fetched leads to a bounded `PC`: at most 4094 + 4, the largest target of
`Bnnn`, or a return address. -/
theorem pc_bounded_of_transition {i : Instr} {s : State} {a : Word} (inside : s.pc.toNat ≤ 4094)
    (entries : ∀ k : Fin 16, (s.stack[k.val]).toNat ≤ 4096) (h : PcTransition i s a) : a.toNat ≤ 0x10FE := by
  have advance : (s.pc + 2).toNat = s.pc.toNat + 2 := toNat_pc_add inside (by decide)
  have skip : (s.pc + 4).toNat = s.pc.toNat + 4 := toNat_pc_add inside (by decide)
  cases i with
  | ret =>
    obtain ⟨k, -, rfl⟩ := h
    exact (entries k).trans (by decide)
  | jpNnn nnn | callNnn nnn =>
    change a.toNat = nnn.toNat at h
    omega
  | jpV0Nnn nnn =>
    change a.toNat = nnn.toNat + (s.getV 0).toNat at h
    omega
  | seVxKk | sneVxKk | seVxVy | sneVxVy | skpVx | sknpVx =>
    obtain rfl | rfl := h <;> omega
  | _ => cases h; omega

/-- The stack after an instruction that was fetched: CALL pushes a return address of at most 4096. -/
theorem stack_bounded_of_exec {i : Instr} {s t : State} (inside : s.pc.toNat ≤ 4094)
    (entries : ∀ k : Fin 16, (s.stack[k.val]).toNat ≤ 4096) (run : exec i s = .next t) (k : Fin 16) :
    (t.stack[k.val]).toNat ≤ 4096 := by
  by_cases same : t.stack = s.stack
  · exact same ▸ entries k
  · obtain ⟨nnn, rfl⟩ := (writesOnly_of_exec run).stack same
    obtain ⟨-, t', eq, -, -, pushed⟩ | ⟨-, eq⟩ := exec_callNnn_cases nnn s <;> cases run.symm.trans eq
    · rw [pushed]
      split
      · rw [toNat_pc_add inside (by decide)]
        exact Nat.add_le_add_right inside 2
      · exact entries k
    · exact entries k

theorem addressesBounded_of_exec {i : Instr} {s t : State} (inside : s.pc.toNat ≤ 4094) (bounded : AddressesBounded s)
    (run : exec i s = .next t) : AddressesBounded t := by
  refine ⟨?_, stack_bounded_of_exec inside bounded.2 run⟩
  obtain complete | faults := precise_of_exec run
  · exact pc_bounded_of_transition inside bounded.2 complete.transition
  · have pc : t.pc = s.pc := (congrArg State.pc faults.frame.1 :)
    exact pc ▸ bounded.1

theorem addressesBounded_congr {s t : State} (pc : t.pc = s.pc) (stack : t.stack = s.stack) :
    AddressesBounded t ↔ AddressesBounded s := by
  simp only [AddressesBounded, pc, stack]

/-- Settles O57: only an instruction writes `PC` or the stack, and it was fetched at 4094 or below. -/
theorem stepKeepsAddressesBounded : Obligations.StepKeepsAddressesBounded := by
  unfold Obligations.StepKeepsAddressesBounded
  intro s t bounded run
  have start : AddressesBounded s.beginStep := (addressesBounded_congr s.beginStep_pc s.beginStep_stack).2 bounded
  obtain ⟨-, rfl⟩ | ⟨-, rfl⟩ | ⟨-, -, rfl⟩ | ⟨w, -, fetch, run⟩ := next_cases run
  · exact start
  · exact (addressesBounded_congr s.beginStep.awaitKey_pc s.beginStep.awaitKey_stack).2 start
  · exact start
  · refine addressesBounded_of_exec ?_ (s := s.beginStep.tickTimers) start run
    simpa using (State.fetch_eq_some.1 fetch).1

/-- Settles O58. -/
theorem resetMeetsInvariants : Obligations.ResetMeetsInvariants := by
  unfold Obligations.ResetMeetsInvariants
  refine fun rows => ⟨faultConsistent_of_noFault rfl, ?_⟩
  have reset : AddressesBounded State.reset := ⟨by decide, by decide⟩
  exact (addressesBounded_congr (State.resetWith_pc rows) (State.resetWith_stack rows)).2 reset

end Sys2Proof.Machine

/-! PROOFS. Register and ALU instructions (42_alu.md): each meaning is one register write, or a result and a flag in one
of the two orders of R133, and an advance. -/

namespace Sys2Proof.Machine

open Sys2Proof.Safety

/-! ### One register written -/

section
variable (s : State) (x : Nibble)

theorem State.getV_setV_advance (b : Byte) : (s.setV x b).advance.getV x = b := s.getV_setV_self x b

theorem State.setV_advance_sameMemory (b : Byte) : SameMemory s (s.setV x b).advance :=
  sameMemory_of_mem_eq (by rw [State.advance_mem, State.setV_mem])

end

/-- Settles O23. -/
theorem loadsAndCopies : Obligations.LoadsAndCopies := by
  unfold Obligations.LoadsAndCopies
  exact ⟨fun x kk s => ⟨(s.setV x kk).advance, rfl, rfl, s.getV_setV_advance x kk, s.setV_advance_sameRegsBut x kk,
      s.setV_advance_sameMemory x kk⟩,
    fun x y s => ⟨(s.setV x (s.getV y)).advance, rfl, rfl, s.getV_setV_advance x _, s.setV_advance_sameRegsBut x _,
      s.setV_advance_sameMemory x _⟩⟩

/-- Settles O24. -/
theorem addImmediateWraps : Obligations.AddImmediateWraps := by
  unfold Obligations.AddImmediateWraps
  refine fun x kk s => ⟨(s.setV x (s.getV x + kk)).advance, rfl, rfl, ?_, s.setV_advance_sameRegsBut x _,
    s.setV_advance_sameMemory x _⟩
  rw [State.getV_setV_advance, BitVec.toNat_add]

/-- Settles O25: the operations of the library are bit by bit. -/
theorem logicOperations : Obligations.LogicOperations := by
  unfold Obligations.LogicOperations
  refine fun x y s => ⟨
    ⟨(s.setV x (s.getV x ||| s.getV y)).advance, rfl, rfl, fun k => ?or, s.setV_advance_sameRegsBut x _,
      s.setV_advance_sameMemory x _⟩,
    ⟨(s.setV x (s.getV x &&& s.getV y)).advance, rfl, rfl, fun k => ?and, s.setV_advance_sameRegsBut x _,
      s.setV_advance_sameMemory x _⟩,
    ⟨(s.setV x (s.getV x ^^^ s.getV y)).advance, rfl, rfl, fun k => ?xor, s.setV_advance_sameRegsBut x _,
      s.setV_advance_sameMemory x _⟩⟩
  case or => rw [State.getV_setV_advance, BitVec.getLsbD_or]
  case and => rw [State.getV_setV_advance, BitVec.getLsbD_and]
  case xor => rw [State.getV_setV_advance, BitVec.getLsbD_xor]

/-- Settles O29. -/
theorem randomByteIsMasked : Obligations.RandomByteIsMasked := by
  unfold Obligations.RandomByteIsMasked
  refine fun x kk s => ⟨(s.setV x (s.rnd &&& kk)).advance, rfl, rfl, fun k => ?_, s.setV_advance_sameRegsBut x _,
    s.setV_advance_sameMemory x _⟩
  rw [State.getV_setV_advance, BitVec.getLsbD_and]

/-! ### A result and a flag -/

/-- The flag of bit `k` of a byte, by arithmetic. -/
theorem toNat_flagOf_getLsbD (b : Byte) (k : Nat) : (flagOf (b.getLsbD k)).toNat = b.toNat / 2 ^ k % 2 := by
  rw [BitVec.getLsbD, Nat.testBit_eq_decide_div_mod_eq]
  rcases Nat.mod_two_eq_zero_or_one (b.toNat / 2 ^ k) with bit | bit <;> rw [bit] <;> rfl

/-- What a flag first and a result second leave (R127 to R130). -/
theorem State.setFlagThenResult_advance_spec (s : State) (x : Nibble) (f b : Byte) :
    (s.setFlagThenResult x f b).advance =
      { s with v := (s.setFlagThenResult x f b).advance.v, pc := s.pc + 2 } ∧
    (s.setFlagThenResult x f b).advance.getV x = b ∧
    (x ≠ vf → (s.setFlagThenResult x f b).advance.getV vf = f) ∧
    (∀ r : Nibble, r ≠ x → r ≠ vf → (s.setFlagThenResult x f b).advance.getV r = s.getV r) ∧
    SameMemory s (s.setFlagThenResult x f b).advance := by
  simp only [State.getV_advance, State.getV_setFlagThenResult]
  refine ⟨rfl, if_pos trivial, fun other => ?_, fun r ne_x ne_vf => ?_, fun a => rfl⟩
  · rw [if_neg other.symm, if_pos trivial]
  · rw [if_neg ne_x, if_neg ne_vf]

/-- Settles O26. -/
theorem addWithCarry : Obligations.AddWithCarry := by
  unfold Obligations.AddWithCarry
  intro x y s
  refine ⟨_, rfl, rfl, ?_, fun other => ?_, fun r ne_x ne_vf => ?_, fun a => rfl⟩ <;>
    rw [State.getV_advance, State.getV_setResultThenFlag]
  · rw [if_pos rfl, carryFlag, flagOf]
    simp only [decide_eq_true_eq]
  · rw [if_neg other, if_pos rfl, BitVec.toNat_add]
  · rw [if_neg ne_vf, if_neg ne_x]

theorem greaterFlag_eq (a b : Byte) : greaterFlag a b = if a.toNat > b.toNat then 1 else 0 := by
  simp only [greaterFlag, flagOf, decide_eq_true_eq]

theorem toNat_sub_byte (a b : Byte) : (a - b).toNat = (a.toNat + 256 - b.toNat) % 256 := by
  rw [BitVec.toNat_sub]
  omega

/-- Settles O27. -/
theorem subtractWithBorrowFlag : Obligations.SubtractWithBorrowFlag := by
  unfold Obligations.SubtractWithBorrowFlag
  intro x y s
  obtain ⟨subFrame, subResult, subFlag, subKept⟩ :=
    s.setFlagThenResult_advance_spec x (greaterFlag (s.getV x) (s.getV y)) (s.getV x - s.getV y)
  obtain ⟨subnFrame, subnResult, subnFlag, subnKept⟩ :=
    s.setFlagThenResult_advance_spec x (greaterFlag (s.getV y) (s.getV x)) (s.getV y - s.getV x)
  refine ⟨⟨_, rfl, subFrame, ?sub, fun other => ?subFlag, subKept⟩,
    ⟨_, rfl, subnFrame, ?subn, fun other => ?subnFlag, subnKept⟩⟩
  case sub => rw [subResult, toNat_sub_byte]
  case subFlag => rw [subFlag other, greaterFlag_eq]
  case subn => rw [subnResult, toNat_sub_byte]
  case subnFlag => rw [subnFlag other, greaterFlag_eq]

/-- Settles O28. -/
theorem singleRegisterShifts : Obligations.SingleRegisterShifts := by
  unfold Obligations.SingleRegisterShifts
  intro x y s
  obtain ⟨shrFrame, shrResult, shrFlag, shrKept⟩ :=
    s.setFlagThenResult_advance_spec x (shiftRightFlag (s.getV x)) (s.getV x >>> 1)
  obtain ⟨shlFrame, shlResult, shlFlag, shlKept⟩ :=
    s.setFlagThenResult_advance_spec x (shiftLeftFlag (s.getV x)) (s.getV x <<< 1)
  refine ⟨⟨_, rfl, shrFrame, ?shr, fun other => ?shrFlag, shrKept⟩,
    ⟨_, rfl, shlFrame, ?shl, fun other => ?shlFlag, shlKept⟩⟩
  case shr => rw [shrResult, BitVec.toNat_ushiftRight, Nat.shiftRight_eq_div_pow]
  case shrFlag => rw [shrFlag other, shiftRightFlag, toNat_flagOf_getLsbD, Nat.pow_zero, Nat.div_one]
  case shl => rw [shlResult, BitVec.toNat_shiftLeft, Nat.shiftLeft_eq]
  case shlFlag =>
    rw [shlFlag other, shiftLeftFlag, toNat_flagOf_getLsbD]
    omega

end Sys2Proof.Machine

/-! PROOFS. Dxyn (43_display.md R141, R142): the loop is the closed form, and drawing twice restores the display. -/

namespace Sys2Proof.Machine

open Sys2Proof.Safety

/-- Settles O32. -/
theorem drawBeyondMemoryFaults : Obligations.DrawBeyondMemoryFaults := by
  unfold Obligations.DrawBeyondMemoryFaults
  intro x y n s rows out
  obtain ⟨rfl | fits, -⟩ | ⟨-, -, run⟩ := exec_drwVxVyN_cases s x y n
  · exact absurd rfl rows
  · omega
  · exact ⟨_, run, toNat_firstOutOfRange s.i ▸ faulted_raise s .memOutOfRange (firstOutOfRange s.i)⟩

/-- The pixels that the rows read at `I` cover are the sprite mask (R142). -/
theorem spriteCovers_iff_spriteMask (s : State) (x y n : Nibble) (c : Fin 64) (r : Fin 32) :
    spriteCovers (s.getV x) (s.getV y) 0 ((List.range n.toNat).map fun k => s.readMem (s.i.toNat + k)) c r ↔
      SpriteMask s x y n c r := by
  have col (bit : Nat) : c = spriteCol (s.getV x) bit ↔ c.val = ((s.getV x).toNat + bit) % 64 := Fin.ext_iff
  have row (k : Nat) : r = spriteRow (s.getV y) (0 + k) ↔ r.val = ((s.getV y).toNat + k) % 32 := by
    rw [Nat.zero_add]
    exact Fin.ext_iff
  have byte {k : Nat} (hk : k < n.toNat) :
      ((List.range n.toNat).map fun k => s.readMem (s.i.toNat + k)).getD k 0 = s.readMem (s.i.toNat + k) := by
    rw [List.getD_eq_getElem _ _ (by simpa using hk)]
    simp
  simp only [spriteCovers, SpriteMask, List.length_map, List.length_range, col, row, spriteBit]
  constructor
  · rintro ⟨k, bit, hk, hb, hc, hr, set⟩
    exact ⟨k, bit, hk, hb, hc, hr, byte hk ▸ set⟩
  · rintro ⟨k, bit, hk, hb, hc, hr, set⟩
    exact ⟨k, bit, hk, hb, hc, hr, (byte hk).symm ▸ set⟩

theorem flagOf_eq_one {b : Bool} : flagOf b = 1 ↔ b = true := by cases b <;> decide

/-- Settles O31: `drawRows_spec` at the rows read, from the display and no collision yet. -/
theorem drawEqualsSpriteMask : Obligations.DrawEqualsSpriteMask := by
  unfold Obligations.DrawEqualsSpriteMask
  intro x y n s fits
  obtain ⟨-, drawn, rfl, run⟩ | ⟨rows, out, -⟩ := exec_drwVxVyN_cases s x y n
  · obtain ⟨pixels, collision⟩ := drawRows_spec (s.getV x) (s.getV y) 0
      ((List.range n.toNat).map fun k => s.readMem (s.i.toNat + k)) (s.disp, false) (by simp; omega)
    simp only [spriteCovers_iff_spriteMask, Bool.false_eq_true, false_or] at pixels collision
    refine ⟨_, run, rfl, pixels, ?_, ?_, fun r other => ?_, fun a => rfl⟩
    · rw [State.getV_advance, State.getV_setDisp, State.getV_setV_self, flagOf]
      split <;> simp
    · rw [State.getV_advance, State.getV_setDisp, State.getV_setV_self, flagOf_eq_one, collision]
    · rw [State.getV_advance, State.getV_setDisp, State.getV_setV_ne _ _ other]
  · obtain rfl | fits := fits
    · exact absurd rfl rows
    · omega

/-- The mask is a matter of the coordinates, `I` and memory. -/
theorem spriteMask_congr {s t : State} {x y n : Nibble} (vx : t.getV x = s.getV x) (vy : t.getV y = s.getV y)
    (i : t.i = s.i) (mem : SameMemory s t) (c : Fin 64) (r : Fin 32) :
    SpriteMask t x y n c r ↔ SpriteMask s x y n c r := by
  simp only [SpriteMask, vx, vy, i, mem _]

/-- The sprite has a set bit iff one of its bytes is not 0. -/
theorem exists_spriteMask_iff (s : State) (x y n : Nibble) :
    (∃ (c : Fin 64) (r : Fin 32), SpriteMask s x y n c r) ↔
      ∃ row : Nat, row < n.toNat ∧ s.readMem (s.i.toNat + row) ≠ 0 := by
  constructor
  · rintro ⟨c, r, row, bit, hrow, -, -, -, set⟩
    refine ⟨row, hrow, fun zero => ?_⟩
    simp [zero] at set
  · rintro ⟨row, hrow, byte⟩
    obtain ⟨k, hk, set⟩ : ∃ k, k < 8 ∧ (s.readMem (s.i.toNat + row)).getLsbD k = true := by
      by_contra noBit
      refine byte (BitVec.eq_of_getLsbD_eq fun k hk => ?_)
      simpa using fun set => noBit ⟨k, hk, set⟩
    refine ⟨spriteCol (s.getV x) (7 - k), spriteRow (s.getV y) row, row, 7 - k, hrow, by omega, rfl, rfl, ?_⟩
    rwa [show 7 - (7 - k) = k by omega]

/-- Two flips by one condition are none. -/
theorem flip_twice {p q : Prop} : (¬ ((¬ (p ↔ q)) ↔ q)) ↔ p := by
  by_cases p <;> by_cases q <;> simp_all

/-- Settles O33: the second draw has the same mask, so each pixel is flipped twice or not at all; a pixel it finds lit
under the mask is one that the first draw lit. -/
theorem drawTwiceRestores : Obligations.DrawTwiceRestores := by
  unfold Obligations.DrawTwiceRestores
  intro x y n s hx hy fits
  obtain ⟨t, run, frame, pixels, flag, collision, regs, mem⟩ := drawEqualsSpriteMask x y n s fits
  have i : t.i = s.i := (congrArg State.i frame :)
  obtain ⟨u, run', -, pixels', -, collision', -⟩ := drawEqualsSpriteMask x y n t (i ▸ fits)
  have mask := spriteMask_congr (n := n) (regs x hx) (regs y hy) i mem
  simp only [mask] at pixels' collision'
  have lit (c : Fin 64) (r : Fin 32) :
      t.disp.pixel c r = true ∧ SpriteMask s x y n c r ↔ s.disp.pixel c r = false ∧ SpriteMask s x y n c r := by
    rw [pixels]
    cases s.disp.pixel c r <;> simp
  refine ⟨t, u, run, run', Display.ext_pixel fun c r => ?_, ?_, fun noCollision => ?_⟩
  · rw [Bool.eq_iff_iff, pixels', pixels]
    exact flip_twice
  · rw [collision']
    simp only [lit]
  · have dark : ∀ (c : Fin 64) (r : Fin 32), SpriteMask s x y n c r → s.disp.pixel c r = false := by
      intro c r under
      by_contra h
      have : t.getV vf = 1 := collision.2 ⟨c, r, by simpa using h, under⟩
      simp [noCollision] at this
    rw [collision', ← exists_spriteMask_iff s x y n]
    simp only [lit]
    exact exists₂_congr fun c r => and_iff_right_of_imp (dark c r)

end Sys2Proof.Machine

/-! PROOFS. Keypad instructions (44_keypad_timers.md): the key skips (R150, R151) and the start of a key wait (R153). -/

namespace Sys2Proof.Machine

open Sys2Proof.Safety

/-- Settles O34: below 16 a key skip is a jump by 4 or by 2. -/
theorem keySkips : Obligations.KeySkips := by
  unfold Obligations.KeySkips
  intro x s index
  have skips (pressed : Bool) : s.skipOnKey x pressed =
      { s with pc := if s.keypad.getLsbD (s.getV x).toNat = pressed then s.pc + 4 else s.pc + 2 } := by
    obtain ⟨out, -⟩ | ⟨-, eq⟩ := s.skipOnKey_cases x pressed
    · omega
    · rw [eq, State.keyDown, State.jump]
      simp only [beq_iff_eq]
  refine ⟨⟨_, rfl, skips true, ?_⟩, ⟨_, rfl, ?_, ?_⟩⟩
  · rw [skips]
    exact sameMemory_of_mem_eq rfl
  · rw [skips]
    cases s.keypad.getLsbD (s.getV x).toNat <;> rfl
  · rw [skips]
    exact sameMemory_of_mem_eq rfl

/-- Settles O35. -/
theorem keyIndexFaults : Obligations.KeyIndexFaults := by
  unfold Obligations.KeyIndexFaults
  intro x s out
  have faults (pressed : Bool) : Faulted .keyIndexOutOfRange (s.getV x).toNat s (s.skipOnKey x pressed) := by
    obtain ⟨-, eq⟩ | ⟨index, -⟩ := s.skipOnKey_cases x pressed
    · rw [eq, ← toNat_infoOfByte (s.getV x)]
      exact faulted_raise s _ _
    · omega
  exact ⟨⟨_, rfl, faults true⟩, ⟨_, rfl, faults false⟩⟩

/-- Settles O37. -/
theorem awaitKeypressSetsWait : Obligations.AwaitKeypressSetsWait := by
  unfold Obligations.AwaitKeypressSetsWait
  exact fun x s => ⟨(s.startWait x).advance, rfl, rfl,
    sameMemory_of_mem_eq (by rw [State.advance_mem, State.startWait_mem])⟩

end Sys2Proof.Machine

/-! PROOFS. Index register and memory instructions (45_index_memory.md): setting and adding to `I` (R160, R162, R163),
the stores (R164, R165) and the load (R166). -/

namespace Sys2Proof.Machine

open Sys2Proof.Safety

/-! ### The index register -/

/-- Settles O38. -/
theorem setIndex : Obligations.SetIndex := by
  unfold Obligations.SetIndex
  have memKept (s : State) (a : Word) : SameMemory s (s.setI a).advance :=
    sameMemory_of_mem_eq (by rw [State.advance_mem, State.setI_mem])
  exact ⟨fun nnn s => ⟨(s.setI (addrOf nnn)).advance, rfl, rfl, toNat_addrOf nnn, memKept s _⟩,
    fun x s => ⟨(s.setI (glyphAddr (s.getV x))).advance, rfl, rfl, toNat_glyphAddr (s.getV x), memKept s _⟩⟩

/-- Settles O39. -/
theorem addToIndex : Obligations.AddToIndex := by
  unfold Obligations.AddToIndex
  intro x s fits
  have run : exec (.addIVx x) s = .next (s.setI (BitVec.ofNat 16 (indexSum s.i (s.getV x)))).advance :=
    congrArg Host.Outcome.next (if_neg (Nat.not_lt.2 fits))
  refine ⟨_, run, rfl, ?_, sameMemory_of_mem_eq (by rw [State.advance_mem, State.setI_mem])⟩
  rw [State.advance_i, State.setI_i, BitVec.toNat_ofNat, indexSum]
  omega

/-- Settles O40. -/
theorem indexOverflowFaults : Obligations.IndexOverflowFaults := by
  unfold Obligations.IndexOverflowFaults
  intro x s overflow
  have run : exec (.addIVx x) s = .next (s.raise .indexOverflow s.i) :=
    congrArg Host.Outcome.next (if_pos overflow)
  exact ⟨_, run, faulted_raise s .indexOverflow s.i⟩

/-! ### Storing from `I` on -/

theorem State.storeAtI_of_fits {s : State} {bytes : List Byte} (nonempty : bytes ≠ [])
    (fits : s.i.toNat + bytes.length ≤ 4096) :
    s.storeAtI bytes = { s with mem := s.mem.writeBytes s.i.toNat bytes, pc := s.pc + 2 } := by
  obtain ⟨-, eq⟩ | ⟨out, -⟩ := s.storeAtI_cases bytes nonempty
  · exact eq
  · omega

theorem State.storeAtI_faulted {s : State} {bytes : List Byte} (nonempty : bytes ≠ [])
    (out : 4096 < s.i.toNat + bytes.length) : Faulted .memOutOfRange (max s.i.toNat 4096) s (s.storeAtI bytes) := by
  obtain ⟨fits, -⟩ | ⟨-, eq⟩ := s.storeAtI_cases bytes nonempty
  · omega
  · rw [eq, ← toNat_firstOutOfRange]
    exact faulted_raise s _ _

/-- Read after a store that fits: the bytes of the range are those stored, and every other byte is as before. -/
theorem State.readMem_storeAtI {s : State} (canonical : MemoryCanonical s) {bytes : List Byte} (nonempty : bytes ≠ [])
    (fits : s.i.toNat + bytes.length ≤ 4096) (a : Nat) :
    (s.storeAtI bytes).readMem a =
      if s.i.toNat ≤ a then bytes.getD (a - s.i.toNat) (s.readMem a) else s.readMem a := by
  rw [State.storeAtI_of_fits nonempty fits]
  exact Memory.read_writeBytes (Memory.wf_ordered canonical) s.i.toNat bytes a

theorem State.readMem_storeAtI_stored {s : State} (canonical : MemoryCanonical s) {bytes : List Byte}
    (fits : s.i.toNat + bytes.length ≤ 4096) (k : Nat) (h : k < bytes.length) :
    (s.storeAtI bytes).readMem (s.i.toNat + k) = bytes[k] := by
  have nonempty : bytes ≠ [] := List.ne_nil_of_length_pos (by omega)
  rw [State.readMem_storeAtI canonical nonempty fits, if_pos (by omega), Nat.add_sub_cancel_left,
    List.getD_eq_getElem _ _ h]

theorem State.readMem_storeAtI_kept {s : State} (canonical : MemoryCanonical s) {bytes : List Byte}
    (nonempty : bytes ≠ []) (fits : s.i.toNat + bytes.length ≤ 4096) {a : Nat}
    (outside : a < s.i.toNat ∨ s.i.toNat + bytes.length ≤ a) : (s.storeAtI bytes).readMem a = s.readMem a := by
  rw [State.readMem_storeAtI canonical nonempty fits]
  split
  · rw [List.getD_eq_default _ _ (by omega)]
  · rfl

theorem length_bcdDigits (b : Byte) : (bcdDigits b).length = 3 := rfl

theorem toNat_ofNat_digit {d : Nat} (h : d ≤ 9) : (BitVec.ofNat 8 d).toNat = d := by
  rw [BitVec.toNat_ofNat]
  omega

/-- Settles O41. -/
theorem bcdStoresDigits : Obligations.BcdStoresDigits := by
  unfold Obligations.BcdStoresDigits
  intro x s canonical fits
  have length := length_bcdDigits (s.getV x)
  have nonempty : bcdDigits (s.getV x) ≠ [] := List.cons_ne_nil _ _
  have inside : s.i.toNat + (bcdDigits (s.getV x)).length ≤ 4096 := by omega
  have stored (k : Nat) (h : k < (bcdDigits (s.getV x)).length) := State.readMem_storeAtI_stored canonical inside k h
  refine ⟨s.storeAtI (bcdDigits (s.getV x)), rfl, ?frame, ?hundreds, ?tens, ?units, fun a outside => ?kept⟩
  case frame => rw [State.storeAtI_of_fits nonempty inside]
  case hundreds => exact (congrArg BitVec.toNat (stored 0 (by omega))).trans (toNat_ofNat_digit (by omega))
  case tens => exact (congrArg BitVec.toNat (stored 1 (by omega))).trans (toNat_ofNat_digit (by omega))
  case units => exact (congrArg BitVec.toNat (stored 2 (by omega))).trans (toNat_ofNat_digit (by omega))
  case kept => exact State.readMem_storeAtI_kept canonical nonempty inside (by omega)

/-- Settles O42. -/
theorem registerDumpStores : Obligations.RegisterDumpStores := by
  unfold Obligations.RegisterDumpStores
  intro x s canonical fits
  have length := s.length_getVsUpTo x
  have nonempty := s.getVsUpTo_ne_nil x
  have inside : s.i.toNat + (s.getVsUpTo x).length ≤ 4096 := by omega
  refine ⟨s.storeAtI (s.getVsUpTo x), rfl, ?frame, fun k k_le => ?stored, fun a outside => ?kept⟩
  case frame => rw [State.storeAtI_of_fits nonempty inside]
  case stored =>
    rw [State.readMem_storeAtI_stored canonical inside k.toNat (by omega), State.getElem_getVsUpTo,
      BitVec.ofNat_toNat, BitVec.setWidth_eq]
  case kept => exact State.readMem_storeAtI_kept canonical nonempty inside (by omega)

/-! ### Loading from `I` on -/

/-- Settles O43: `exec_ldVxMemI_cases` in the range. -/
theorem registerLoadReads : Obligations.RegisterLoadReads := by
  unfold Obligations.RegisterLoadReads
  intro x s fits
  obtain ⟨-, t, run, frame, regs⟩ | ⟨out, -⟩ := exec_ldVxMemI_cases s x
  · exact ⟨t, run, frame, fun k k_le => (regs k).trans (if_pos k_le),
      fun k above => (regs k).trans (if_neg (Nat.not_le.2 above)), sameMemory_of_mem_eq (congrArg State.mem frame :)⟩
  · omega

/-- Settles O44. -/
theorem dataBeyondMemoryFaults : Obligations.DataBeyondMemoryFaults := by
  unfold Obligations.DataBeyondMemoryFaults
  refine fun x s => ⟨fun out => ⟨_, rfl, ?bcd⟩, fun out => ⟨_, rfl, ?dump⟩, fun out => ?load⟩
  case bcd => exact State.storeAtI_faulted (List.cons_ne_nil _ _) (by rw [length_bcdDigits]; omega)
  case dump => exact State.storeAtI_faulted (s.getVsUpTo_ne_nil x) (by rw [State.length_getVsUpTo]; omega)
  case load =>
    obtain ⟨fits, -⟩ | ⟨-, run⟩ := exec_ldVxMemI_cases s x
    · omega
    · exact ⟨_, run, toNat_firstOutOfRange s.i ▸ faulted_raise s .memOutOfRange (firstOutOfRange s.i)⟩

/-- Settles O45: the load reads the bytes that the dump stored. -/
theorem dumpThenLoadRestores : Obligations.DumpThenLoadRestores := by
  unfold Obligations.DumpThenLoadRestores
  intro x s canonical fits
  obtain ⟨t, dump, -, stored, -⟩ := registerDumpStores x s canonical fits
  refine ⟨t, dump, fun u mem i => ?_⟩
  obtain ⟨w, load, -, loaded, kept, -⟩ := registerLoadReads x u (i ▸ fits)
  refine ⟨w, load, fun k k_le => ?_, kept⟩
  rw [loaded k k_le, State.readMem, mem, i]
  exact stored k k_le

end Sys2Proof.Machine

/-! PROOFS. INIT (10_state.md R30; 70_reset_and_hazards.md R190, R191): the registers, and memory as the font table and
zeros. -/

namespace Sys2Proof.Machine

open Sys2Proof.Safety

theorem length_defaultFont : Config.defaultFont.length = 80 := length_fontTable Config.defaultRows

/-- Memory after INIT: the font table below 80, and 0 from 80 on. -/
theorem readMem_resetWith (rows : Config.GlyphRows) (a : Nat) :
    (State.resetWith rows).readMem a = (Config.fontTable rows).getD a 0 := by
  have written : (State.resetWith rows).readMem a = (Config.fontTable rows).getD a (resetByte a) := by
    rw [State.readMem, State.resetWith_mem, Memory.read_writeBytes .nil, if_pos (Nat.zero_le a), Nat.sub_zero]
    rfl
  have length := length_fontTable rows
  rw [written]
  by_cases inTable : a < 80
  · rw [List.getD_eq_getElem _ _ (by omega), List.getD_eq_getElem _ _ (by omega)]
  · rw [List.getD_eq_default _ _ (by omega), List.getD_eq_default _ _ (by omega), resetByte,
      List.getD_eq_default _ _ (by rw [length_defaultFont]; omega)]

/-- The registers at reset are those of `State.reset`, whatever the font. -/
theorem getV_reset (r : Nibble) : State.reset.getV r = 0 := by
  simp [State.getV, State.reset]

/-- Settles O46. -/
theorem resetValues : Obligations.ResetValues := by
  unfold Obligations.ResetValues
  refine ⟨by decide, fun rows => ⟨State.resetWith rows, rfl, getV_reset, rfl, rfl, rfl, fun k => ?stack, rfl, rfl,
    Display.pixel_clear, rfl, rfl, rfl, rfl, rfl, rfl, rfl, fun a inTable => ?table, length_fontTable rows,
    fun a above => ?zeros⟩⟩
  case stack => simp [State.reset]
  case table => rw [readMem_resetWith, List.getD_eq_getElem _ _ inTable]
  case zeros => rw [readMem_resetWith, List.getD_eq_default _ _ (by rw [length_fontTable]; exact above)]

/-! ### The glyphs (20_memory.md R47) -/

section
variable (rows : Config.GlyphRows)

theorem fontTable_glyph0 {k : Nat} (h : k < 5) : (Config.fontTable rows).getD k 0 = Config.glyph0.getD k 0 := by
  rw [Config.fontTable, List.append_assoc, List.getD_append _ _ _ _ h]

theorem fontTable_glyphRows (k : Fin 70) : (Config.fontTable rows).getD (5 + k.val) 0 = Config.rowByte rows[k.val] := by
  have length : Config.glyph0.length = 5 := rfl
  rw [Config.fontTable, List.append_assoc, List.getD_append_right _ _ _ _ (by omega), length, Nat.add_sub_cancel_left,
    List.getD_append _ _ _ _ (by simp), List.getD_eq_getElem _ _ (by simp)]
  simp

theorem fontTable_glyphF (k : Nat) : (Config.fontTable rows).getD (75 + k) 0 = Config.glyphF.getD k 0 := by
  have length : (Config.glyph0 ++ rows.toList.map Config.rowByte).length = 75 := by simp [Config.glyph0]
  rw [Config.fontTable, List.getD_append_right _ _ _ _ (by omega), length, Nat.add_sub_cancel_left]

/-- Bits 3..0 of every byte of the table are 0. -/
theorem fontTable_low_bits {a : Nat} (h : a < 80) : ((Config.fontTable rows).getD a 0).toNat % 16 = 0 := by
  have glyphs : ∀ k : Fin 5, (Config.glyph0.getD k 0).toNat % 16 = 0 ∧ (Config.glyphF.getD k 0).toNat % 16 = 0 := by
    decide
  obtain low | ⟨k, rfl⟩ | ⟨k, rfl⟩ : a < 5 ∨ (∃ k : Fin 70, a = 5 + k.val) ∨ ∃ k : Fin 5, a = 75 + k.val := by
    by_cases low : a < 5
    · exact .inl low
    · by_cases mid : a < 75
      · exact .inr (.inl ⟨⟨a - 5, by omega⟩, by dsimp only; omega⟩)
      · exact .inr (.inr ⟨⟨a - 75, by omega⟩, by dsimp only; omega⟩)
  · rw [fontTable_glyph0 rows low]
    exact (glyphs ⟨a, low⟩).1
  · rw [fontTable_glyphRows, toNat_rowByte, Nat.mul_mod_left]
  · rw [fontTable_glyphF]
    exact (glyphs k).2

end

/-- Settles O47. -/
theorem sourceGlyphsAfterReset : Obligations.SourceGlyphsAfterReset := by
  unfold Obligations.SourceGlyphsAfterReset
  intro rows
  have glyph0 : (List.range 5).map (State.resetWith rows).readMem = (List.range 5).map (Config.glyph0.getD · 0) :=
    List.map_congr_left fun k inGlyph => by rw [readMem_resetWith, fontTable_glyph0 rows (List.mem_range.1 inGlyph)]
  have glyphF : (List.range 5).map (fun k => (State.resetWith rows).readMem (75 + k)) =
      (List.range 5).map (Config.glyphF.getD · 0) :=
    List.map_congr_left fun k _ => by rw [readMem_resetWith, fontTable_glyphF]
  refine ⟨glyph0, glyphF, fun k => ?_, fun a inTable => ?_⟩
  · rw [readMem_resetWith, fontTable_glyphRows, toNat_rowByte]
  · rw [readMem_resetWith, fontTable_low_bits rows inTable]

/-- Settles O48. -/
theorem initResetsEveryState : Obligations.InitResetsEveryState := by
  unfold Obligations.InitResetsEveryState
  exact fun s bytes => ⟨rfl, rfl, rfl⟩

end Sys2Proof.Machine
